-- ==== Sys2Proof/Word.lean ====
section
/-! DEFINITION. The unit of every packet and text (a byte, 30_encoding.md R45, 00_scope.md R6) and the
width `XW` = 64 of an integer operand or result (00_scope.md R5). -/

namespace Sys2Proof

/-- One byte of a packet; a character of a text is one byte (00_scope.md R6). -/
abbrev Byte := BitVec 8

/-- An integer operand or result of a packet, `XW` = 64 bits, unsigned (30_encoding.md R48). -/
abbrev Word64 := BitVec 64

/-- A command or response packet: bytes, `pkt[0]` first (30_encoding.md R45). -/
abbrev Packet := List Byte

/-- A character string, leftmost character first (00_scope.md R6, 20_memory.md R32). -/
abbrev Text := List Byte

end Sys2Proof
end

