-- ==== Sys2Proof/Syntax.lean ====
section
/-! DEFINITION. The command set as syntax: one constructor of `Instr` for each row of spec/opcode_table.json
(30_encoding.md R51), the operand types, the opcodes, and the faults a command can end with
(60_exceptions.md R131). -/

namespace Sys2Proof

/-- The UUID register specifier: `U0` to `U3` of the issuing port (10_state.md R12, 20_memory.md R31 (a)). -/
inductive UReg where
  | u0 | u1 | u2 | u3
  deriving DecidableEq, Repr

/-- The field index 0..5, in field order (10_state.md R11). -/
inductive FieldIx where
  | timeLow | timeMid | timeHiAndVersion | clockSeqHiAndReserved | clockSeqLow | node
  deriving DecidableEq, Repr

/-- The representation selector of `RDF`: integer, binary string, hex string (30_encoding.md R59). -/
inductive Rep where
  | int | bin | hex
  deriving DecidableEq, Repr

/-- The six optional operands of `INIT`, in field order; `none` is an omitted operand (30_encoding.md R58). -/
structure InitArgs where
  timeLow               : Option Word64
  timeMid               : Option Word64
  timeHiAndVersion      : Option Word64
  clockSeqHiAndReserved : Option Word64
  clockSeqLow           : Option Word64
  node                  : Option Word64
  deriving DecidableEq, Repr

/-- The commands (30_encoding.md R51, R56). -/
inductive Instr where
  /-- `INIT Ud [, field=value]...` (41_value_type.md R87). -/
  | init (d : UReg) (args : InitArgs)
  /-- `GENV4 Ud` (42_gen_v4.md R101). -/
  | genv4 (d : UReg)
  /-- `GENV1 Ud` (43_gen_v1.md R110). -/
  | genv1 (d : UReg)
  /-- `V1INIT` (43_gen_v1.md R106). -/
  | v1init
  /-- `PARSE Ud, "text"` (44_parser.md R123). -/
  | parse (d : UReg) (text : Text)
  /-- `TOSTR Us` (41_value_type.md R88). -/
  | tostr (u : UReg)
  /-- `EQ Ua, Ub` (41_value_type.md R89). -/
  | eq (a b : UReg)
  /-- `RDF Us, field, rep` (41_value_type.md R90). -/
  | rdf (u : UReg) (field : FieldIx) (rep : Rep)
  /-- `RDVER Us` (41_value_type.md R91). -/
  | rdver (u : UReg)
  /-- `RDBITS Us` (41_value_type.md R92). -/
  | rdbits (u : UReg)
  /-- `RNDBITS width` (40_field_codec.md R71). -/
  | rndbits (width : Byte)
  /-- `FMT value, length, radix` (40_field_codec.md R72). -/
  | fmt (value : Word64) (length radix : Byte)
  deriving DecidableEq, Repr

/-- The legal opcode nibbles, 0x1 to 0xC (30_encoding.md R51). -/
inductive Op where
  | init | genv4 | genv1 | v1init | parse | tostr | eq | rdf | rdver | rdbits | rndbits | fmt
  deriving DecidableEq, Repr

/-- The seven faults of a command, each with the `Info` of 60_exceptions.md R131. The information is
diagnostic: no response and no register holds it (R131). -/
inductive CmdFault where
  /-- `pkt[0][7:4]` is 0x0, 0xD, 0xE or 0xF; info: `pkt[0]`. -/
  | illegalOpcode (b0 : Byte)
  /-- Empty packet or wrong length; info: the length. -/
  | badLength (len : Nat)
  /-- A must-be-zero bit is 1 or a reserved value is used; info: the offending byte. -/
  | reservedField (b : Byte)
  /-- The subject register is absent; info: the register. -/
  | absentOperand (u : UReg)
  /-- `RNDBITS` with `width > 53`; info: `width`. -/
  | widthRange (width : Byte)
  /-- `FMT` with `radix < 2` or `radix > 36`; info: `radix`. -/
  | radixRange (radix : Byte)
  /-- `FMT` with `length > 128` or more digits than `length`; info: `length`. -/
  | formatOverflow (length : Byte)
  deriving DecidableEq, Repr

end Sys2Proof
end

