-- ==== Sys2Proof/WellFormed.lean ====
section
/-! DEFINITION. Which terms of `Instr` are commands a packet can carry. Every operand type but the text of
`PARSE` has exactly the values the encoding has; the text length is one byte (`TEXT_MAXLEN` = 255,
00_scope.md R5, 92_eei_decisions.md D26). -/

namespace Sys2Proof

/-- `TEXT_MAXLEN`: the longest text a `PARSE` packet can carry (00_scope.md R5). -/
def textMaxLen : Nat := 255

/-- The command can be written as a packet. -/
def Instr.wellFormed : Instr → Bool
  | .init _ _    => true
  | .genv4 _     => true
  | .genv1 _     => true
  | .v1init      => true
  | .parse _ t   => decide (t.length ≤ textMaxLen)
  | .tostr _     => true
  | .eq _ _      => true
  | .rdf _ _ _   => true
  | .rdver _     => true
  | .rdbits _    => true
  | .rndbits _   => true
  | .fmt _ _ _   => true

end Sys2Proof
end

