-- ==== Sys2Proof/Decode.lean ====
section
/-! DEFINITION. The decoder, total on every byte sequence (30_encoding.md R45 to R48, R51 to R55, R58, R59):
every packet is exactly one command or exactly one fault, by name. After it the encoder, written from the same
tables, and the two functions the host's opcode-table questions use. -/

namespace Sys2Proof

/-! ## Fields of the opcode byte (30_encoding.md R46) -/

/-- `op = pkt[0][7:4]` (R51); `none` for the illegal nibbles 0x0, 0xD, 0xE, 0xF (R52). -/
def opOfByte (b : Byte) : Option Op :=
  match (b.extractLsb' 4 4).toNat with
  | 0x1 => some .init
  | 0x2 => some .genv4
  | 0x3 => some .genv1
  | 0x4 => some .v1init
  | 0x5 => some .parse
  | 0x6 => some .tostr
  | 0x7 => some .eq
  | 0x8 => some .rdf
  | 0x9 => some .rdver
  | 0xA => some .rdbits
  | 0xB => some .rndbits
  | 0xC => some .fmt
  | _   => none

/-- The register a 2-bit specifier names (20_memory.md R31 (a)). -/
def uregOfBits (b : BitVec 2) : UReg :=
  match b.toNat with
  | 0 => .u0
  | 1 => .u1
  | 2 => .u2
  | _ => .u3

/-- `ra = pkt[0][3:2]` (R46). -/
def raOf (b : Byte) : UReg := uregOfBits (b.extractLsb' 2 2)

/-- `rb = pkt[0][1:0]` (R46). -/
def rbOf (b : Byte) : UReg := uregOfBits (b.extractLsb' 0 2)

/-- The bits of `pkt[0]` that must be zero (R54; `must_be_zero_mask_pkt0` of the opcode table). -/
def mustBeZero : Op → Byte
  | .init    => 0x03
  | .genv4   => 0x03
  | .genv1   => 0x03
  | .v1init  => 0x0F
  | .parse   => 0x03
  | .tostr   => 0x03
  | .eq      => 0x00
  | .rdf     => 0x03
  | .rdver   => 0x03
  | .rdbits  => 0x03
  | .rndbits => 0x0F
  | .fmt     => 0x0F

/-! ## The second byte -/

/-- `n1(m)`: the number of 1 bits in `m[5:0]` (R47). -/
def n1 (m : Byte) : Nat :=
  (m.getLsbD 0).toNat + (m.getLsbD 1).toNat + (m.getLsbD 2).toNat
    + (m.getLsbD 3).toNat + (m.getLsbD 4).toNat + (m.getLsbD 5).toNat

/-- `idx = pkt[1][2:0]` of an `RDF` selector; 6 and 7 are reserved (R59). -/
def fieldOfSelector (sel : Byte) : Option FieldIx :=
  match (sel.extractLsb' 0 3).toNat with
  | 0 => some .timeLow
  | 1 => some .timeMid
  | 2 => some .timeHiAndVersion
  | 3 => some .clockSeqHiAndReserved
  | 4 => some .clockSeqLow
  | 5 => some .node
  | _ => none

/-- `rep = pkt[1][4:3]` of an `RDF` selector; 3 is reserved (R59). -/
def repOfSelector (sel : Byte) : Option Rep :=
  match (sel.extractLsb' 3 2).toNat with
  | 0 => some .int
  | 1 => some .bin
  | 2 => some .hex
  | _ => none

/-! ## The checks, in the order of R55 -/

/-- The length the format requires, given `pkt[1]` if the packet has one (R47, R53); `none` where `pkt[1]` is
needed and missing. -/
def requiredLength (op : Op) (b1 : Option Byte) : Option Nat :=
  match op with
  | .init    => b1.map fun m => 2 + 8 * n1 m
  | .genv4   => some 1
  | .genv1   => some 1
  | .v1init  => some 1
  | .parse   => b1.map fun n => 2 + n.toNat
  | .tostr   => some 1
  | .eq      => some 1
  | .rdf     => some 2
  | .rdver   => some 1
  | .rdbits  => some 1
  | .rndbits => some 2
  | .fmt     => some 11

/-- The offending byte of a must-be-zero bit or reserved value, if there is one: `pkt[0]` first, then
`pkt[1]` (R54). -/
def reservedByte (op : Op) (b0 b1 : Byte) : Option Byte :=
  if b0 &&& mustBeZero op ≠ 0 then some b0
  else match op with
    | .init    => if b1 &&& 0xC0 ≠ 0 then some b1 else none
    | .rdf     => if b1 &&& 0xE0 ≠ 0 ∨ fieldOfSelector b1 = none ∨ repOfSelector b1 = none then some b1 else none
    | .genv4   => none
    | .genv1   => none
    | .v1init  => none
    | .parse   => none
    | .tostr   => none
    | .eq      => none
    | .rdver   => none
    | .rdbits  => none
    | .rndbits => none
    | .fmt     => none

/-! ## Operand assembly (R48, R58) -/

/-- `BE64`: the unsigned 64-bit integer in the first eight bytes, most significant byte first (R48). -/
def be64 (bs : List Byte) : Word64 :=
  BitVec.ofNat 64 ((bs.take 8).foldl (fun acc b => acc * 256 + b.toNat) 0)

/-- One operand of `INIT`: eight bytes if its mask bit is set, nothing otherwise (R58). -/
def takeOperand (present : Bool) (bs : List Byte) : Option Word64 × List Byte :=
  if present then (some (be64 bs), bs.drop 8) else (none, bs)

/-- The six operands of `INIT`: present operands follow the mask in ascending field index (R58). -/
def initArgsOf (m : Byte) (body : List Byte) : InitArgs :=
  let r0 := takeOperand (m.getLsbD 0) body
  let r1 := takeOperand (m.getLsbD 1) r0.2
  let r2 := takeOperand (m.getLsbD 2) r1.2
  let r3 := takeOperand (m.getLsbD 3) r2.2
  let r4 := takeOperand (m.getLsbD 4) r3.2
  let r5 := takeOperand (m.getLsbD 5) r4.2
  { timeLow := r0.1, timeMid := r1.1, timeHiAndVersion := r2.1,
    clockSeqHiAndReserved := r3.1, clockSeqLow := r4.1, node := r5.1 }

/-- The command of a packet that passed every check of `decode`. -/
def assemble (op : Op) (pkt : Packet) : Instr :=
  let b0 := pkt.getD 0 0
  let b1 := pkt.getD 1 0
  match op with
  | .init    => .init (raOf b0) (initArgsOf b1 (pkt.drop 2))
  | .genv4   => .genv4 (raOf b0)
  | .genv1   => .genv1 (raOf b0)
  | .v1init  => .v1init
  | .parse   => .parse (raOf b0) (pkt.drop 2)
  | .tostr   => .tostr (raOf b0)
  | .eq      => .eq (raOf b0) (rbOf b0)
  | .rdf     => .rdf (raOf b0) ((fieldOfSelector b1).getD .timeLow) ((repOfSelector b1).getD .int)
  | .rdver   => .rdver (raOf b0)
  | .rdbits  => .rdbits (raOf b0)
  | .rndbits => .rndbits b1
  | .fmt     => .fmt (be64 (pkt.drop 3)) b1 (pkt.getD 2 0)

/-- Decode one packet: empty packet, opcode legality, length, must-be-zero and reserved values, in that order
(R55 (1) to (4)). -/
def decode (pkt : Packet) : Except CmdFault Instr :=
  match pkt with
  | [] => .error (.badLength 0)
  | b0 :: rest =>
    match opOfByte b0 with
    | none => .error (.illegalOpcode b0)
    | some op =>
      if requiredLength op rest.head? = some (rest.length + 1) then
        match reservedByte op b0 (rest.headD 0) with
        | some b => .error (.reservedField b)
        | none   => .ok (assemble op (b0 :: rest))
      else .error (.badLength (rest.length + 1))

/-! ## The encoder -/

/-- The opcode nibble (R51). -/
def opBits : Op → BitVec 4
  | .init    => 0x1
  | .genv4   => 0x2
  | .genv1   => 0x3
  | .v1init  => 0x4
  | .parse   => 0x5
  | .tostr   => 0x6
  | .eq      => 0x7
  | .rdf     => 0x8
  | .rdver   => 0x9
  | .rdbits  => 0xA
  | .rndbits => 0xB
  | .fmt     => 0xC

/-- The 2-bit register specifier (20_memory.md R31 (a)). -/
def uregBits : UReg → BitVec 2
  | .u0 => 0
  | .u1 => 1
  | .u2 => 2
  | .u3 => 3

/-- The field index in 3 bits (R59). -/
def fieldBits : FieldIx → BitVec 3
  | .timeLow               => 0
  | .timeMid               => 1
  | .timeHiAndVersion      => 2
  | .clockSeqHiAndReserved => 3
  | .clockSeqLow           => 4
  | .node                  => 5

/-- The representation code in 2 bits (R59). -/
def repBits : Rep → BitVec 2
  | .int => 0
  | .bin => 1
  | .hex => 2

/-- The opcode byte `{op, ra, rb}` (R46). -/
def opByte (op : Op) (ra rb : UReg) : Byte := opBits op ++ uregBits ra ++ uregBits rb

/-- The `INIT` presence mask: bit `i` set where operand `i` is present, bits 7..6 zero (R58). -/
def initMask (a : InitArgs) : Byte :=
  0#2 ++ BitVec.ofBool a.node.isSome ++ BitVec.ofBool a.clockSeqLow.isSome
    ++ BitVec.ofBool a.clockSeqHiAndReserved.isSome ++ BitVec.ofBool a.timeHiAndVersion.isSome
    ++ BitVec.ofBool a.timeMid.isSome ++ BitVec.ofBool a.timeLow.isSome

/-- The `RDF` selector byte `000rriii` (R59, 41_value_type.md R90). -/
def rdfSelector (f : FieldIx) (r : Rep) : Byte := 0#3 ++ repBits r ++ fieldBits f

/-- A 64-bit integer as eight bytes, most significant first (R48); also the form of integer results (R49). -/
def be64Bytes (v : Word64) : List Byte :=
  [v.extractLsb' 56 8, v.extractLsb' 48 8, v.extractLsb' 40 8, v.extractLsb' 32 8,
   v.extractLsb' 24 8, v.extractLsb' 16 8, v.extractLsb' 8 8, v.extractLsb' 0 8]

/-- The bytes of one `INIT` operand (R58). -/
def operandBytes : Option Word64 → List Byte
  | none   => []
  | some v => be64Bytes v

/-- The packet of a command (R47). -/
def encode : Instr → Packet
  | .init d a    => opByte .init d .u0 :: initMask a ::
      (operandBytes a.timeLow ++ (operandBytes a.timeMid ++ (operandBytes a.timeHiAndVersion
        ++ (operandBytes a.clockSeqHiAndReserved ++ (operandBytes a.clockSeqLow ++ operandBytes a.node)))))
  | .genv4 d     => [opByte .genv4 d .u0]
  | .genv1 d     => [opByte .genv1 d .u0]
  | .v1init      => [opByte .v1init .u0 .u0]
  | .parse d t   => opByte .parse d .u0 :: BitVec.ofNat 8 t.length :: t
  | .tostr u     => [opByte .tostr u .u0]
  | .eq a b      => [opByte .eq a b]
  | .rdf u f r   => [opByte .rdf u .u0, rdfSelector f r]
  | .rdver u     => [opByte .rdver u .u0]
  | .rdbits u    => [opByte .rdbits u .u0]
  | .rndbits w   => [opByte .rndbits .u0 .u0, w]
  | .fmt v l r   => opByte .fmt .u0 .u0 :: l :: r :: be64Bytes v

/-! ## The opcode table's words -/

/-- The packet of a table word: byte `i` is bits `8i+7 .. 8i` of `w`, bits at and above `nbits` are 0, and the
packet is as long as its format requires (operand bytes of zeros), or `nbits` long where that is longer or the
opcode is illegal (log entry 15). -/
def packetOfWord (nbits w : Nat) : Packet :=
  let v  := w % 2 ^ nbits
  let b0 : Byte := BitVec.ofNat 8 v
  let b1 : Byte := BitVec.ofNat 8 (v >>> 8)
  let given := (nbits + 7) / 8
  let need := match opOfByte b0 with
    | none    => given
    | some op => (requiredLength op (some b1)).getD given
  (List.range (max given need)).map fun i => BitVec.ofNat 8 (v >>> (8 * i))

/-- The command the decoder reads from a word of spec/opcode_table.json. -/
def decodeTableWord (nbits w : Nat) : Option Instr :=
  match decode (packetOfWord nbits w) with
  | .ok i    => some i
  | .error _ => none

end Sys2Proof
end

