-- ==== Sys2Proof/Config.lean ====
section
/-! DEFINITION. What a configuration of the block fixes (the open parameter `NPORT`, 92_eei_decisions.md D2)
and the FREE VALUES: constants without a body, so that nothing can be proved about which value they are.
The literals the spec itself fixes (00_scope.md R5) stand in Machine/Params.lean. -/

namespace Sys2Proof

/-- Number of host ports at `State.reset`: the default the spec gives (00_scope.md R5). A state may have any
number of ports; see notes/assumptions/7.md. -/
def Config.NPORT : Nat := 1

/-- FREE VALUE: the random source's sample number `n` where none is scripted (10_state.md R21; log entry 1). -/
opaque Config.freeDraw : Nat → BitVec 30

/-- FREE VALUE: the wall clock's sample number `n` where none is scripted (10_state.md R22; log entry 2). -/
opaque Config.freeNow : Nat → BitVec 48

/-- FREE VALUE: the port arbiter's choice number `n` where none is scripted (20_memory.md R36; log entry 3). -/
opaque Config.freePick : Nat → Nat

end Sys2Proof
end

