-- ==== Sys2Proof/Machine/State.lean ====
section
/-! DEFINITION. The state of the block as plain data (10_state.md R10 to R20): per port four UUID registers and
`FAULT`, shared the version-1 generator state, and beside them the model's own fields that hold the inputs and
outputs of a step (10_state.md R21 to R23; log entries 1 to 9). -/

namespace Sys2Proof.Machine

/-- A UUID value: six unsigned integers, each within its width (10_state.md R11, R13: only the six integers are
stored). -/
structure UuidVal where
  timeLow               : BitVec 32
  timeMid               : BitVec 16
  timeHiAndVersion      : BitVec 16
  clockSeqHiAndReserved : BitVec 8
  clockSeqLow           : BitVec 8
  node                  : BitVec 48
  deriving DecidableEq, Repr

/-- One host port: its UUID registers (`none` is `absent`, 10_state.md R12), its sticky fault register (R15),
and the model's two lists: the commands still waiting (oldest first) and the responses given (oldest first). -/
structure Port where
  u0        : Option UuidVal
  u1        : Option UuidVal
  u2        : Option UuidVal
  u3        : Option UuidVal
  fault     : Byte
  queue     : List Packet
  responses : List Packet
  deriving DecidableEq, Repr

/-- The shared version-1 generator state (10_state.md R16 to R20). `timestamp` is in milliseconds
(90_conflicts.md C1). -/
structure V1State where
  inited    : Bool
  timestamp : BitVec 48
  sequence  : BitVec 14
  node      : BitVec 48
  tick      : BitVec 14
  deriving DecidableEq, Repr

/-- The environment inputs a step reads (10_state.md R21, R22; 20_memory.md R36): samples still to come, and how
many of each kind have been taken. Where a list is empty the sample is a free value of Config applied to the
count (log entries 1 to 3). -/
structure Env where
  draws   : List (BitVec 30)
  drawn   : Nat
  clocks  : List (BitVec 48)
  sampled : Nat
  picks   : List Nat
  picked  : Nat
  deriving DecidableEq, Repr

/-- The state. `ports` has one entry per port, so its length is `NPORT` (log entry 7). `cur` is the number of the
port whose command is being executed, the `p` of the rules' pseudocode (log entry 8). `resetReq` is the reset
input (log entry 9). -/
structure State where
  ports    : List Port
  v1       : V1State
  env      : Env
  cur      : Nat
  resetReq : Bool
  deriving DecidableEq, Repr

/-- Why the machine stops. No rule of the spec stops the block (60_exceptions.md R135); a command's own faults
are next states. -/
inductive Fault where
  /-- Raised by every meaning when the issuing port number names no port (60_exceptions.md R143: ports are
  `0..NPORT-1`). Safe: no step issues a command on such a port (log entry 8). -/
  | noSuchPort
  deriving DecidableEq, Repr

/-- Why the machine gives an instruction no meaning. -/
inductive Refusal where
  /-- An arm of exec that has no meaning yet, by the table's mnemonic. Safe: a stop. No arm of this model raises
  it. -/
  | notModelled (mnemonic : String)
  deriving DecidableEq, Repr

/-- The three outcomes of one step. -/
abbrev Result := Host.Outcome State Fault Refusal

/-- A port right after reset: all registers `absent`, `FAULT` 0x00 (10_state.md R25), nothing waiting and no
response given. -/
def Port.reset : Port :=
  { u0 := none, u1 := none, u2 := none, u3 := none, fault := 0x00, queue := [], responses := [] }

/-- `V1` right after reset: `inited` = 0 (10_state.md R25). DESIGN CHOICE, unsafe, log entry 6: the other four
components, which the spec leaves unspecified and unobservable, are 0. -/
def V1State.reset : V1State := { inited := false, timestamp := 0, sequence := 0, node := 0, tick := 0 }

/-- No input scripted and none taken (DESIGN CHOICE, log entries 1 to 3). -/
def Env.reset : Env := { draws := [], drawn := 0, clocks := [], sampled := 0, picks := [], picked := 0 }

/-- The state right after reset with `n` ports (10_state.md R25). -/
def State.resetWith (n : Nat) : State :=
  { ports := List.replicate n Port.reset, v1 := V1State.reset, env := Env.reset, cur := 0, resetReq := false }

/-- The machine right after reset, with the spec's default number of ports. -/
def State.reset : State := State.resetWith Config.NPORT

end Sys2Proof.Machine
end

