-- ==== Sys2Proof/Machine/Params.lean ====
section
/-! DEFINITION. The parameters the spec fixes (00_scope.md R5) and the literals it takes from the document as
written (00_scope.md section 1, unaudited; log entries 10 to 12). -/

namespace Sys2Proof.Machine

/-- `DRAW_MAX`: the widest single draw (00_scope.md R5; 40_field_codec.md R65). -/
def drawMax : Nat := 30

/-- `RND_MAX`: the widest random integer (00_scope.md R5; 40_field_codec.md R66). -/
def rndMax : Nat := 53

/-- `TICK_MAX`: `tick` is incremented only below it (00_scope.md R5; 43_gen_v1.md R108). -/
def tickMax : Nat := 9999

/-- `COIN_BITS`: the 1/8 coin is a draw of 3 bits equal to zero (00_scope.md R5; 43_gen_v1.md R108). -/
def coinBits : Nat := 3

/-- `FMT_MAXLEN`: the largest `length` of `FMT` (00_scope.md R5; 40_field_codec.md R72). -/
def fmtMaxLen : Nat := 128

/-- `RADIX_MIN` (00_scope.md R5; 40_field_codec.md R72). -/
def radixMin : Nat := 2

/-- `RADIX_MAX` (00_scope.md R5; 40_field_codec.md R72). -/
def radixMax : Nat := 36

/-- `EPOCH_OFFSET_MS`: milliseconds from 1582-10-15 to 1970-01-01 (00_scope.md R5; the spec marks it as general
knowledge, 93_implementation_defined.md G1; log entry 10). -/
def epochOffsetMs : Nat := 12219292800000

/-- 100-nanosecond intervals in a millisecond (43_gen_v1.md R107; log entry 10). -/
def ticksPerMs : Nat := 10000

/-- The bit forced to 1 in `V1.node`: bit 0 (43_gen_v1.md R105; 90_conflicts.md C2; log entry 12). -/
def nodeForced : Nat := 1

/-- The version tag OR-ed into a version-4 value (42_gen_v4.md R100). -/
def version4Tag : Nat := 0x4000

/-- The version tag OR-ed into a version-1 value (43_gen_v1.md R110 step 6). -/
def version1Tag : Nat := 0x1000

/-- The variant tag `10` OR-ed into `clockSeqHiAndReserved` (42_gen_v4.md R100; 43_gen_v1.md R109). -/
def variantTag : Nat := 0x80

end Sys2Proof.Machine
end

