-- ==== Sys2Proof/Machine/Flags.lean ====
section
/-! DEFINITION. The block has no condition codes (10_state.md R24). What a command reports is the status byte of
its response (30_encoding.md R50), and the only status that persists is the sticky `FAULT` register of its port
(10_state.md R15). -/

namespace Sys2Proof.Machine

/-- Status `OK` (30_encoding.md R50). -/
def statusOk : Byte := 0x00

/-- Status `ABSENT` of `PARSE`, not a fault (30_encoding.md R50; 60_exceptions.md R136). -/
def statusAbsent : Byte := 0x01

/-- The status byte of a fault (30_encoding.md R50; 60_exceptions.md R131). -/
def statusOfFault : CmdFault → Byte
  | .illegalOpcode _  => 0x81
  | .badLength _      => 0x82
  | .reservedField _  => 0x83
  | .absentOperand _  => 0x84
  | .widthRange _     => 0x85
  | .radixRange _     => 0x86
  | .formatOverflow _ => 0x87

/-- The next value of `FAULT[p]` when a command of port `p` faults: the first fault wins (10_state.md R15;
60_exceptions.md R132 (c)). -/
def stickyFault (old status : Byte) : Byte := if old = 0x00 then status else old

end Sys2Proof.Machine
end

