-- ==== Sys2Proof/Machine/Ops.lean ====
section
/-! DEFINITION. The shared operations: the environment inputs (`Draw`, `Now`, the arbiter's choice), the UUID
registers, the issuing port, ending a command normally (`respond`) or with a fault (`raise`), and reset
(00_scope.md R7; 60_exceptions.md R132; 70_reset_and_hazards.md R150, R151). -/

namespace Sys2Proof.Machine

/-! ## Environment inputs -/

/-- The next sample of the random source. -/
def Env.nextDraw (e : Env) : BitVec 30 := e.draws.headD (Config.freeDraw e.drawn)

/-- `Draw(k)`, `0 <= k <= 30`: a value below `2^k`, otherwise unconstrained; `Draw(0)` is 0 and takes nothing
(10_state.md R21; 40_field_codec.md R65). The hardware takes `k` bits of the sample (log entry 1). -/
def Env.draw (k : Nat) (e : Env) : Nat × Env :=
  if k = 0 then (0, e)
  else (e.nextDraw.toNat % 2 ^ k, { e with draws := e.draws.tail, drawn := e.drawn + 1 })

/-- `Now()`: one sample of the wall clock, milliseconds, 48 bits, unconstrained (10_state.md R22). -/
def Env.now (e : Env) : BitVec 48 × Env :=
  (e.clocks.headD (Config.freeNow e.sampled), { e with clocks := e.clocks.tail, sampled := e.sampled + 1 })

/-- One free choice of the port arbiter (20_memory.md R36). -/
def Env.pick (e : Env) : Nat × Env :=
  (e.picks.headD (Config.freePick e.picked), { e with picks := e.picks.tail, picked := e.picked + 1 })

/-! ## UUID registers (10_state.md R12) -/

/-- `U[i]` of a port. -/
def Port.getU (p : Port) : UReg → Option UuidVal
  | .u0 => p.u0
  | .u1 => p.u1
  | .u2 => p.u2
  | .u3 => p.u3

/-- `U[i] <- v`: a register is written whole (00_scope.md R7). -/
def Port.setU (p : Port) (r : UReg) (v : Option UuidVal) : Port :=
  match r with
  | .u0 => { p with u0 := v }
  | .u1 => { p with u1 := v }
  | .u2 => { p with u2 := v }
  | .u3 => { p with u3 := v }

/-! ## Ending a command -/

/-- The response packet of a command: the status byte, then the payload (30_encoding.md R49). -/
def Port.reply (p : Port) (status : Byte) (payload : List Byte) : Port :=
  { p with responses := p.responses ++ [status :: payload] }

/-- The port's side of a fault: `FAULT` is set if it was 0, and the response is the status byte alone
(60_exceptions.md R132 (c), (d)). -/
def Port.takeFault (p : Port) (f : CmdFault) : Port :=
  { p with fault := stickyFault p.fault (statusOfFault f) }.reply (statusOfFault f) []

/-- The context of the issuing port, if the port exists. -/
def State.issuer (s : State) : Option Port := s.ports[s.cur]?

/-- Replace the context of the issuing port. -/
def State.setIssuer (s : State) (p : Port) : State := { s with ports := s.ports.set s.cur p }

/-- Run a command on the issuing port; a command of a port that does not exist stops (log entry 8). -/
def State.atIssuer (s : State) (k : Port → Result) : Result :=
  match s.issuer with
  | none   => .fault .noSuchPort
  | some p => k p

/-- `respond(status, payload)`: end the command normally, with `p` the issuing port's new context
(00_scope.md R7). -/
def State.respond (s : State) (p : Port) (status : Byte) (payload : List Byte) : Result :=
  .next (s.setIssuer (p.reply status payload))

/-- `raise <Fault>(info)`, the one way a command faults: nothing is written but `FAULT[p]`, no draw and no clock
sample is taken, and the response is the status byte (00_scope.md R7; 60_exceptions.md R132). There is no trap
entry and no return from one: the port's next command runs normally (R134, R135). -/
def State.raise (s : State) (f : CmdFault) : Result :=
  s.atIssuer fun p => .next (s.setIssuer (p.takeFault f))

/-! ## Reset (70_reset_and_hazards.md R150, R151) -/

/-- A port at reset: registers `absent`, `FAULT` 0x00, waiting commands discarded without a response; responses
already given stay given (log entry 5). -/
def Port.atReset (p : Port) : Port := { Port.reset with responses := p.responses }

/-- Reset from outside, between commands: the architectural state becomes that of 10_state.md R25; the
environment inputs are not affected (R151). -/
def State.takeReset (s : State) : State :=
  { s with ports := s.ports.map Port.atReset, v1 := V1State.reset, resetReq := false }

end Sys2Proof.Machine
end

