-- ==== Sys2Proof/Machine/Operands.lean ====
section
/-! DEFINITION. Operand forms: the subject register of a command (41_value_type.md R88 to R92), an optional
operand of `INIT` (30_encoding.md R58), the field index with its width (10_state.md R11), and the integer form of
a result (30_encoding.md R48, R49). -/

namespace Sys2Proof.Machine

/-- The subject register of a command: an absent subject raises `AbsentOperand`, a present one is handed on
(10_state.md R12; 41_value_type.md R88). -/
def State.onSubject (s : State) (r : UReg) (k : Port → UuidVal → Result) : Result :=
  s.atIssuer fun p =>
    match p.getU r with
    | none   => s.raise (.absentOperand r)
    | some u => k p u

/-- The value of an `INIT` operand: an omitted operand is 0 (30_encoding.md R58). -/
def operandValue (a : Option Word64) : Nat := (a.getD 0).toNat

/-- `W[i]`: the width of a field in bits (10_state.md R11). -/
def fieldWidth : FieldIx → Nat
  | .timeLow               => 32
  | .timeMid               => 16
  | .timeHiAndVersion      => 16
  | .clockSeqHiAndReserved => 8
  | .clockSeqLow           => 8
  | .node                  => 48

/-- An integer result: 64 bits, most significant byte first (30_encoding.md R48, R49). -/
def intResult (v : Nat) : List Byte := be64Bytes (BitVec.ofNat 64 v)

end Sys2Proof.Machine
end

