-- ==== Sys2Proof/Machine/Codec.lean ====
section
/-! DEFINITION. The field codec (40_field_codec.md): `RandomBits`, `Digits`, `AlignNumber`, and the commands
`RNDBITS` and `FMT`. -/

namespace Sys2Proof.Machine

/-! ## The random-integer function (R66) -/

/-- `RandomBits(width)`: one draw up to 30 bits; above that the low 30 bits first, then the remaining
`width - 30`, combined as `low + high * 2^30` (R66). -/
def randomBits (width : Nat) (e : Env) : Nat × Env :=
  if width ≤ drawMax then e.draw width
  else
    let low  := e.draw drawMax
    let high := low.2.draw (width - drawMax)
    (low.1 + high.1 * 2 ^ drawMax, high.2)

/-! ## The fixed-width formatter (R68 to R70) -/

/-- `DigitChar(d)`, `0 <= d <= 35` (R68). -/
def digitChar (d : Nat) : Byte :=
  if d ≤ 9 then BitVec.ofNat 8 (0x30 + d) else BitVec.ofNat 8 (0x61 + (d - 10))

/-- The recursion of R69 on a bound for the number of digits. -/
def digitsWithin (bound value radix : Nat) : Text :=
  match bound with
  | 0     => []
  | n + 1 =>
    if value < radix then [digitChar value]
    else digitsWithin n (value / radix) radix ++ [digitChar (value % radix)]

/-- `Digits(value, radix)`, `radix >= 2` (R69). A value has at most `log2 value + 1` digits in such a radix, so
the bound cuts nothing off (Laws/Codec.lean: `digits_of_lt`, `digits_of_ge`). -/
def digits (value radix : Nat) : Text := digitsWithin (value.log2 + 1) value radix

/-- `AlignNumber(value, length, radix)`: the digits, padded with `'0'` on the left to `length` characters
(R70). -/
def alignNumber (value length radix : Nat) : Text :=
  List.replicate (length - (digits value radix).length) 0x30 ++ digits value radix

/-! ## Commands -/

/-- `RNDBITS width` (R71). -/
def execRndbits (width : Byte) (s : State) : Result :=
  if rndMax < width.toNat then s.raise (.widthRange width)
  else s.atIssuer fun p =>
    let r := randomBits width.toNat s.env
    { s with env := r.2 }.respond p statusOk (intResult r.1)

/-- `FMT value, length, radix` (R72). -/
def execFmt (value : Word64) (length radix : Byte) (s : State) : Result :=
  if radix.toNat < radixMin ∨ radixMax < radix.toNat then s.raise (.radixRange radix)
  else if fmtMaxLen < length.toNat then s.raise (.formatOverflow length)
  else if length.toNat < (digits value.toNat radix.toNat).length then s.raise (.formatOverflow length)
  else s.atIssuer fun p => s.respond p statusOk (alignNumber value.toNat length.toNat radix.toNat)

end Sys2Proof.Machine
end

