-- ==== Sys2Proof/Machine/Value.lean ====
section
/-! DEFINITION. The UUID value type (41_value_type.md): construction, the derived representations, equality, and
the commands `INIT`, `TOSTR`, `EQ`, `RDF`, `RDVER`, `RDBITS`. -/

namespace Sys2Proof.Machine

/-! ## The packer (R80) -/

/-- `Construct(a0..a5)`: the single construction path; each argument is masked to its field's width (R80). -/
def construct (a0 a1 a2 a3 a4 a5 : Nat) : UuidVal :=
  { timeLow               := BitVec.ofNat 32 a0
    timeMid               := BitVec.ofNat 16 a1
    timeHiAndVersion      := BitVec.ofNat 16 a2
    clockSeqHiAndReserved := BitVec.ofNat 8 a3
    clockSeqLow           := BitVec.ofNat 8 a4
    node                  := BitVec.ofNat 48 a5 }

/-! ## The unpacker and formatter (R81 to R85) -/

/-- `Version(u) = u.timeHiAndVersion[15:12]` (R81). -/
def version (u : UuidVal) : BitVec 4 := u.timeHiAndVersion.extractLsb' 12 4

/-- `FieldInt(u, i)` (R82). -/
def fieldInt (u : UuidVal) : FieldIx → Nat
  | .timeLow               => u.timeLow.toNat
  | .timeMid               => u.timeMid.toNat
  | .timeHiAndVersion      => u.timeHiAndVersion.toNat
  | .clockSeqHiAndReserved => u.clockSeqHiAndReserved.toNat
  | .clockSeqLow           => u.clockSeqLow.toNat
  | .node                  => u.node.toNat

/-- `FieldBin(u, i)`: `w` binary digits (R82). -/
def fieldBin (u : UuidVal) (i : FieldIx) : Text := alignNumber (fieldInt u i) (fieldWidth i) 2

/-- `FieldHex(u, i)`: `w/4` hexadecimal digits (R82). -/
def fieldHex (u : UuidVal) (i : FieldIx) : Text := alignNumber (fieldInt u i) (fieldWidth i / 4) 16

/-- `BitString(u)`: the six binary strings in field order (R83). -/
def bitString (u : UuidVal) : Text :=
  fieldBin u .timeLow ++ fieldBin u .timeMid ++ fieldBin u .timeHiAndVersion
    ++ fieldBin u .clockSeqHiAndReserved ++ fieldBin u .clockSeqLow ++ fieldBin u .node

/-- The hyphen (30_encoding.md R60). -/
def hyphen : Byte := 0x2D

/-- `HexString(u)`: five hyphen-grouped hexadecimal groups; fields 3 and 4 form the fourth group (R84). -/
def hexString (u : UuidVal) : Text :=
  fieldHex u .timeLow ++ [hyphen] ++ fieldHex u .timeMid ++ [hyphen] ++ fieldHex u .timeHiAndVersion ++ [hyphen]
    ++ fieldHex u .clockSeqHiAndReserved ++ fieldHex u .clockSeqLow ++ [hyphen] ++ fieldHex u .node

/-- `Pack128(u)` (R85). -/
def pack128 (u : UuidVal) : Nat :=
  u.timeLow.toNat * 2 ^ 96 + u.timeMid.toNat * 2 ^ 80 + u.timeHiAndVersion.toNat * 2 ^ 64
    + u.clockSeqHiAndReserved.toNat * 2 ^ 56 + u.clockSeqLow.toNat * 2 ^ 48 + u.node.toNat

/-- `Unpack128(x)`: `Construct` of the six slices of `x` (R85); `Construct` masks each shifted value to its
slice. -/
def unpack128 (x : Nat) : UuidVal :=
  construct (x >>> 96) (x >>> 80) (x >>> 64) (x >>> 56) (x >>> 48) x

/-- `Equals(u, v)`: all six integers agree (R86). -/
def equals (u v : UuidVal) : Bool :=
  u.timeLow == v.timeLow && u.timeMid == v.timeMid && u.timeHiAndVersion == v.timeHiAndVersion
    && u.clockSeqHiAndReserved == v.clockSeqHiAndReserved && u.clockSeqLow == v.clockSeqLow && u.node == v.node

/-! ## Commands -/

/-- The value `INIT` constructs from its operands (R87). -/
def initValue (a : InitArgs) : UuidVal :=
  construct (operandValue a.timeLow) (operandValue a.timeMid) (operandValue a.timeHiAndVersion)
    (operandValue a.clockSeqHiAndReserved) (operandValue a.clockSeqLow) (operandValue a.node)

/-- `INIT Ud [, field=value]...` (R87). -/
def execInit (d : UReg) (args : InitArgs) (s : State) : Result :=
  s.atIssuer fun p => s.respond (p.setU d (some (initValue args))) statusOk []

/-- `TOSTR Us` (R88). -/
def execTostr (u : UReg) (s : State) : Result :=
  s.onSubject u fun p v => s.respond p statusOk (hexString v)

/-- The payload byte of `EQ`: an absent second operand is not equal (R89). -/
def eqByte (a : UuidVal) (b : Option UuidVal) : Byte :=
  match b with
  | none   => 0x00
  | some v => if equals a v then 0x01 else 0x00

/-- `EQ Ua, Ub` (R89). -/
def execEq (a b : UReg) (s : State) : Result :=
  s.onSubject a fun p v => s.respond p statusOk [eqByte v (p.getU b)]

/-- The payload of `RDF` in each representation (R90). -/
def fieldResult (u : UuidVal) (f : FieldIx) : Rep → List Byte
  | .int => intResult (fieldInt u f)
  | .bin => fieldBin u f
  | .hex => fieldHex u f

/-- `RDF Us, field, rep` (R90). -/
def execRdf (u : UReg) (field : FieldIx) (rep : Rep) (s : State) : Result :=
  s.onSubject u fun p v => s.respond p statusOk (fieldResult v field rep)

/-- `RDVER Us` (R91). -/
def execRdver (u : UReg) (s : State) : Result :=
  s.onSubject u fun p v => s.respond p statusOk [(version v).setWidth 8]

/-- `RDBITS Us` (R92). -/
def execRdbits (u : UReg) (s : State) : Result :=
  s.onSubject u fun p v => s.respond p statusOk (bitString v)

end Sys2Proof.Machine
end

