-- ==== Sys2Proof/Machine/GenV1.lean ====
section
/-! DEFINITION. The version-1 generator controller and the monotonic-clock arbiter (43_gen_v1.md): `V1Init`,
`TimeFields`, `ClockArbiter`, `ClockSeqFields`, and the commands `V1INIT` and `GENV1`. -/

namespace Sys2Proof.Machine

/-- `V1Init()`: `sequence` drawn first, then `node` with bit 0 forced to 1 (R105). -/
def v1Init (e : Env) : V1State × Env :=
  let sq := randomBits 14 e
  let nd := randomBits 48 sq.2
  ({ inited := true, timestamp := 0, sequence := BitVec.ofNat 14 sq.1,
     node := BitVec.ofNat 48 (nd.1 ||| nodeForced), tick := 0 }, nd.2)

/-- `if V1.inited = 0 then V1Init()`: the state is created once (R106, R111). -/
def v1Ready (v : V1State) (e : Env) : V1State × Env := if v.inited then (v, e) else v1Init e

/-- The 60-bit count of 100-nanosecond intervals since 1582-10-15 (R107). -/
def t60 (ms : Nat) : Nat := ((ms + epochOffsetMs) * ticksPerMs) % 2 ^ 60

/-- `TimeFields(ms).low = t60[31:0]` (R107). -/
def timeFieldLow (ms : Nat) : Nat := t60 ms % 2 ^ 32

/-- `TimeFields(ms).mid = t60[47:32]` (R107). -/
def timeFieldMid (ms : Nat) : Nat := t60 ms / 2 ^ 32 % 2 ^ 16

/-- `TimeFields(ms).high = t60[59:48]` (R107). -/
def timeFieldHigh (ms : Nat) : Nat := t60 ms / 2 ^ 48 % 2 ^ 12

/-- `ClockArbiter(now)`: cases ADVANCE and REGRESS when the clock changed, TICK and SEQ within one millisecond,
where the coin is drawn before `tick` is tested (R108). Incrementing a 14-bit register wraps modulo 2^14. -/
def clockArbiter (now : BitVec 48) (v : V1State) (e : Env) : V1State × Env :=
  if now = v.timestamp then
    let c := e.draw coinBits
    (if c.1 = 0 ∧ v.tick.toNat < tickMax then { v with tick := v.tick + 1 }
     else { v with sequence := v.sequence + 1 }, c.2)
  else
    ({ v with
        sequence  := if now < v.timestamp then v.sequence + 1 else v.sequence
        timestamp := now
        tick      := 0 }, e)

/-- `ClockSeqFields(seq).hi = seq[13:8] | 0x80` (R109). -/
def clockSeqHi (seq : BitVec 14) : Nat := (seq.extractLsb' 8 6).toNat ||| variantTag

/-- `ClockSeqFields(seq).lo = seq[7:0]` (R109). -/
def clockSeqLo (seq : BitVec 14) : Nat := (seq.extractLsb' 0 8).toNat

/-- Steps 4 to 7 of `GENV1`: the value formed from the updated state. `tick` is added to the low group after the
split, so its carry out of bit 31 is lost (R110 corner case (a)). -/
def v1Uuid (v : V1State) : UuidVal :=
  construct ((timeFieldLow v.timestamp.toNat + v.tick.toNat) % 2 ^ 32)
    (timeFieldMid v.timestamp.toNat)
    (timeFieldHigh v.timestamp.toNat ||| version1Tag)
    (clockSeqHi v.sequence) (clockSeqLo v.sequence) v.node.toNat

/-- `GENV1` up to the updated `V1`: creation if needed, one clock sample, the clock arbiter (R110). -/
def genV1State (v : V1State) (e : Env) : V1State × Env :=
  let ready := v1Ready v e
  let clk   := ready.2.now
  clockArbiter clk.1 ready.1 clk.2

/-! ## Commands -/

/-- `V1INIT` (R106). -/
def execV1init (s : State) : Result :=
  s.atIssuer fun p =>
    let r := v1Ready s.v1 s.env
    { s with v1 := r.1, env := r.2 }.respond p statusOk []

/-- `GENV1 Ud` (R110). -/
def execGenv1 (d : UReg) (s : State) : Result :=
  s.atIssuer fun p =>
    let r := genV1State s.v1 s.env
    { s with v1 := r.1, env := r.2 }.respond (p.setU d (some (v1Uuid r.1))) statusOk []

end Sys2Proof.Machine
end

