-- ==== Sys2Proof/Machine/GenV4.lean ====
section
/-! DEFINITION. The version-4 generator controller (42_gen_v4.md): `GenV4` and `GENV4`. -/

namespace Sys2Proof.Machine

/-- `GenV4()`: six random values in field order, eight draws in all; the version and variant tags are OR-ed into
12-bit and 6-bit values (R100). It reads nothing but the random source. -/
def genV4 (e : Env) : UuidVal × Env :=
  let r0 := randomBits 32 e
  let r1 := randomBits 16 r0.2
  let r2 := randomBits 12 r1.2
  let r3 := randomBits 6 r2.2
  let r4 := randomBits 8 r3.2
  let r5 := randomBits 48 r4.2
  (construct r0.1 r1.1 (r2.1 ||| version4Tag) (r3.1 ||| variantTag) r4.1 r5.1, r5.2)

/-- `GENV4 Ud` (R101). -/
def execGenv4 (d : UReg) (s : State) : Result :=
  s.atIssuer fun p =>
    let g := genV4 s.env
    { s with env := g.2 }.respond (p.setU d (some g.1)) statusOk []

end Sys2Proof.Machine
end

