-- ==== Sys2Proof/Machine/Parser.lean ====
section
/-! DEFINITION. The canonical-text parser (44_parser.md): `Matches`, `HexInt`, `ParseText`, and `PARSE`. -/

namespace Sys2Proof.Machine

/-- A hex digit character: `'0'..'9'`, `'a'..'f'`, `'A'..'F'` (30_encoding.md R60). -/
def isHexDigit (c : Byte) : Bool :=
  (0x30 ≤ c.toNat && c.toNat ≤ 0x39) || (0x61 ≤ c.toNat && c.toNat ≤ 0x66) || (0x41 ≤ c.toNat && c.toNat ≤ 0x46)

/-- `HexVal(c)` of a hex digit (R121). -/
def hexVal (c : Byte) : Nat :=
  if c.toNat ≤ 0x39 then c.toNat - 0x30
  else if c.toNat ≤ 0x46 then c.toNat - 0x41 + 10
  else c.toNat - 0x61 + 10

/-- `HexInt(t)`: the unsigned integer a string of hex digits denotes, most significant digit first (R121). -/
def hexInt (t : Text) : Nat := t.foldl (fun acc c => acc * 16 + hexVal c) 0

/-- The positions of the hyphens in the canonical pattern (R120). -/
def isHyphenPos (i : Nat) : Bool := i == 8 || i == 13 || i == 18 || i == 23

/-- `Matches(s)`: the whole string is 36 characters, hyphens at 8, 13, 18 and 23, hex digits elsewhere (R120). -/
def matchesPattern (s : Text) : Bool :=
  s.length == 36 && (List.range 36).all fun i =>
    if isHyphenPos i then s.getD i 0 == hyphen else isHexDigit (s.getD i 0)

/-- `s[i..j]`, both ends included (00_scope.md R6). -/
def substr (s : Text) (i j : Nat) : Text := (s.drop i).take (j + 1 - i)

/-- `ParseText(s)`: a UUID value, or `none` for `absent` (R122). -/
def parseText (s : Text) : Option UuidVal :=
  if matchesPattern s then
    some (construct (hexInt (substr s 0 7)) (hexInt (substr s 9 12)) (hexInt (substr s 14 17))
      (hexInt (substr s 19 20)) (hexInt (substr s 21 22)) (hexInt (substr s 24 35)))
  else none

/-- The status of `PARSE` (R123). -/
def parseStatus (r : Option UuidVal) : Byte := if r.isSome then statusOk else statusAbsent

/-- `PARSE Ud, "text"`: `Ud` receives the result, present or absent; a text that does not match is not a fault
(R123). -/
def execParse (d : UReg) (text : Text) (s : State) : Result :=
  s.atIssuer fun p => s.respond (p.setU d (parseText text)) (parseStatus (parseText text)) []

end Sys2Proof.Machine
end

