-- ==== Sys2Proof/Machine/Dispatch.lean ====
section
/-! DEFINITION. One arm per command, each one direct call of its meaning (30_encoding.md R51). -/

namespace Sys2Proof.Machine

def exec (i : Instr) (s : State) : Host.Outcome State Fault Refusal :=
  match i with
  | .init d args => Sys2Proof.Machine.execInit d args s
  | .genv4 d => Sys2Proof.Machine.execGenv4 d s
  | .genv1 d => Sys2Proof.Machine.execGenv1 d s
  | .v1init => Sys2Proof.Machine.execV1init s
  | .parse d text => Sys2Proof.Machine.execParse d text s
  | .tostr u => Sys2Proof.Machine.execTostr u s
  | .eq a b => Sys2Proof.Machine.execEq a b s
  | .rdf u field rep => Sys2Proof.Machine.execRdf u field rep s
  | .rdver u => Sys2Proof.Machine.execRdver u s
  | .rdbits u => Sys2Proof.Machine.execRdbits u s
  | .rndbits width => Sys2Proof.Machine.execRndbits width s
  | .fmt value length radix => Sys2Proof.Machine.execFmt value length radix s

end Sys2Proof.Machine
end

