-- ==== Sys2Proof/Machine/Fetch.lean ====
section
/-! DEFINITION. What stands in the place of an instruction fetch (10_state.md R14: there is none): the port
arbiter picks a port that has a command waiting and hands over that port's oldest command (20_memory.md R36,
R37). -/

namespace Sys2Proof.Machine

/-- Port `p` has a command waiting. -/
def State.hasCommand (s : State) (p : Nat) : Bool :=
  match s.ports[p]? with
  | none   => false
  | some c => !c.queue.isEmpty

/-- The ports that have a command waiting, in ascending number. -/
def State.waiting (s : State) : List Nat := (List.range s.ports.length).filter s.hasCommand

/-- The port arbiter: any one port that has a command waiting. Where one port alone waits there is nothing to
choose; where several wait, a free choice `c` selects number `c mod n` of the `n` waiting ports (20_memory.md
R36; log entry 3). That no waiting port is passed over for ever (R42) is `WeaklyFair`, a property of a run. -/
def State.arbitrate (s : State) : Option (Nat × Env) :=
  match s.waiting with
  | []           => none
  | [p]          => some (p, s.env)
  | p :: q :: ps =>
    some ((p :: q :: ps).getD (s.env.pick.1 % (p :: q :: ps).length) p, s.env.pick.2)

/-- The packet the next step executes, and the state with that packet taken from its port's queue and the port
made the issuing one; `none` when no command waits. -/
def State.fetch (s : State) : Option (Packet × State) :=
  match s.arbitrate with
  | none        => none
  | some (p, e) =>
    match s.ports[p]? with
    | none   => none
    | some c =>
      match c.queue with
      | []          => none
      | pkt :: rest => some (pkt, { s with ports := s.ports.set p { c with queue := rest }, env := e, cur := p })

/-- Put `pkt` at the head of port 0's queue, drop a pending reset, and, where other ports wait too, script the
arbiter to take port 0: then the very next step executes `pkt` (log entry 4). -/
def State.placeCommand (s : State) (pkt : Packet) : State :=
  match s.ports with
  | []      => s
  | c :: cs =>
    { s with
      ports    := { c with queue := pkt :: c.queue } :: cs
      env      := if cs.any (fun d => !d.queue.isEmpty) then { s.env with picks := 0 :: s.env.picks } else s.env
      resetReq := false }

end Sys2Proof.Machine
end

