-- ==== Sys2Proof/Machine/Step.lean ====
section
/-! DEFINITION. One step of the block: a pending reset (70_reset_and_hazards.md R150), or one command of one port
as one atomic transition (00_scope.md R8; 20_memory.md R36), or, when no command waits, nothing
(60_exceptions.md R144). -/

namespace Sys2Proof.Machine

/-- One step. A packet that does not decode raises its fault; a command runs its meaning (30_encoding.md R55).
Runs of steps are in Sys2Proof/Machine/Run.lean. -/
def step (s : State) : Host.Outcome State Fault Refusal :=
  if s.resetReq then .next s.takeReset
  else match s.fetch with
    | none => .next s
    | some (pkt, t) =>
      match decode pkt with
      | .ok i    => exec i t
      | .error f => t.raise f

/-- `s` with the packet of a table word placed so that the very next step executes it. -/
def State.withFetchWord (s : State) (nbits w : Nat) : State := s.placeCommand (packetOfWord nbits w)

end Sys2Proof.Machine
end

