-- ==== Sys2Proof/Machine/Run.lean ====
section
/-! DEFINITION. A run of the block (70_reset_and_hazards.md R161): steps, what the outside does between two of them,
and the weak fairness of the port arbiter (20_memory.md R42; 92_eei_decisions.md D24). Fairness is a property of a
whole run: each single choice of the arbiter stays free (20_memory.md R36). -/

namespace Sys2Proof.Machine

/-- The arbiter picks port `n` in `s`, so that the step from `s` executes that port's oldest command (20_memory.md
R36, R37). -/
def State.Serves (s : State) (n : Nat) : Prop := ∃ e, s.arbitrate = some (n, e)

/-- From `s`, left by one step, to `t`, where the next step begins: on every port the host may have sent packets,
which wait behind those already there (20_memory.md R37), and the samples still to come may be any (10_state.md R21,
R22; 20_memory.md R36; log entries 1 to 3); nothing else changes. -/
def Inputs (s t : State) : Prop :=
  t.ports.length = s.ports.length
  ∧ (∀ (n : Nat) (c : Port), s.ports[n]? = some c → ∃ sent, t.ports[n]? = some { c with queue := c.queue ++ sent })
  ∧ t.v1 = s.v1 ∧ t.cur = s.cur ∧ t.resetReq = s.resetReq
  ∧ t.env.drawn = s.env.drawn ∧ t.env.sampled = s.env.sampled ∧ t.env.picked = s.env.picked

/-- `τ k` goes to `τ (k + 1)` by one step and then the outside's inputs, with no reset in the middle, which would
start a new run (70_reset_and_hazards.md R161). -/
def Advances (τ : Nat → State) (k : Nat) : Prop :=
  (τ k).resetReq = false ∧ ∃ t, step (τ k) = .next t ∧ Inputs t (τ (k + 1))

/-- The weak fairness of the arbiter (20_memory.md R42): a port that has a command waiting at every step from `k` on
is served at some step from `k` on (log entry 14). -/
def WeaklyFair (τ : Nat → State) : Prop :=
  ∀ n k, (∀ m, k ≤ m → (τ m).hasCommand n = true) → ∃ m, k ≤ m ∧ (τ m).Serves n

/-- A run: `τ k` is the state in which step `k` begins, and the arbiter is weakly fair (70_reset_and_hazards.md
R161; 20_memory.md R36, R37, R42). The block never halts, so a run has every step. -/
def Run (τ : Nat → State) : Prop := (∀ k, Advances τ k) ∧ WeaklyFair τ

end Sys2Proof.Machine
end

