-- ==== Sys2Proof/Safety.lean ====
section
/-! DEFINITION. What the claims speak of: clean runs (60_exceptions.md R135), the state invariant (10_state.md
R26), what a command leaves alone, how many commands wait, and, written once more from the spec's tables and
independently of the meanings, the lengths, reserved values and digit values the claims compare the model with. -/

namespace Sys2Proof.Machine

/-! ## Safe runs -/

/-- `FAULT[p] = 0x00` for every port: no command sent did other than it was sent to do (60_exceptions.md R135). -/
def State.Clean (s : State) : Prop := ∀ c ∈ s.ports, c.fault = 0x00

/-- The legal values of `FAULT[p]`: 0x00 and 0x81 to 0x87 (10_state.md R15). -/
def LegalFault (b : Byte) : Prop := b = 0x00 ∨ (0x81 ≤ b.toNat ∧ b.toNat ≤ 0x87)

/-- The invariants of `V1` (10_state.md R26): once it is initialised. -/
def V1State.Inv (v : V1State) : Prop :=
  v.inited = true →
    v.tick.toNat ≤ 9999 ∧ v.sequence.toNat < 2 ^ 14 ∧ v.node.getLsbD 0 = true ∧ v.node.toNat < 2 ^ 48
      ∧ v.timestamp.toNat < 2 ^ 48

/-- The invariants of a port (10_state.md R26). -/
def Port.Inv (c : Port) : Prop :=
  LegalFault c.fault ∧ ∀ r u, c.getU r = some u → ∀ i, fieldInt u i < 2 ^ fieldWidth i

/-- The state invariant (10_state.md R26), with `NPORT >= 1` (00_scope.md R5). -/
def State.Inv (s : State) : Prop := s.ports ≠ [] ∧ (∀ c ∈ s.ports, c.Inv) ∧ s.v1.Inv

/-- How many commands wait on all ports together. -/
def State.pending (s : State) : Nat := (s.ports.map fun c => c.queue.length).sum

/-! ## Frames -/

/-- From `s` to `t` a command of the issuing port changed no port but that one, whose context is now `q`, and
left the model's bookkeeping of the issuing port and the reset input alone. -/
structure OnlyIssuer (s t : State) (q : Port) : Prop where
  issuer   : t.ports[s.cur]? = some q
  others   : ∀ n, n ≠ s.cur → t.ports[n]? = s.ports[n]?
  length   : t.ports.length = s.ports.length
  cur      : t.cur = s.cur
  resetReq : t.resetReq = s.resetReq

/-- A port's context went from `p` to `q` with exactly one response more, `resp`, and its waiting commands
untouched. -/
structure Answered (p q : Port) (resp : Packet) : Prop where
  responses : q.responses = p.responses ++ [resp]
  queue     : q.queue = p.queue

/-- Every UUID register of the port is unchanged. -/
def SameRegs (p q : Port) : Prop := ∀ r, q.getU r = p.getU r

/-- Every UUID register of the port but `d` is unchanged. -/
def SameRegsBut (d : UReg) (p q : Port) : Prop := ∀ r, r ≠ d → q.getU r = p.getU r

/-- No clock sample and no arbiter choice was taken. -/
def SameClock (e f : Env) : Prop :=
  f.clocks = e.clocks ∧ f.sampled = e.sampled ∧ f.picks = e.picks ∧ f.picked = e.picked

/-- Exactly `n` samples of the random source were taken. -/
def TookDraws (n : Nat) (e f : Env) : Prop := f.draws = e.draws.drop n ∧ f.drawn = e.drawn + n

/-- The register a command writes, if it is one of the four constructing commands (41_value_type.md R93). -/
def destOf : Instr → Option UReg
  | .init d _   => some d
  | .genv4 d    => some d
  | .genv1 d    => some d
  | .parse d _  => some d
  | .v1init     => none
  | .tostr _    => none
  | .eq _ _     => none
  | .rdf _ _ _  => none
  | .rdver _    => none
  | .rdbits _   => none
  | .rndbits _  => none
  | .fmt _ _ _  => none

/-- The commands that only read state and take no environment input (20_memory.md R35). -/
def isRead : Instr → Bool
  | .tostr _    => true
  | .eq _ _     => true
  | .rdf _ _ _  => true
  | .rdver _    => true
  | .rdbits _   => true
  | .fmt _ _ _  => true
  | .init _ _   => false
  | .genv4 _    => false
  | .genv1 _    => false
  | .v1init     => false
  | .parse _ _  => false
  | .rndbits _  => false

/-! ## The spec's tables, for the claims -/

/-- The required packet length by opcode nibble and second byte (30_encoding.md R47, R53). -/
def lengthByTable (op : Nat) (b1 : Option Byte) : Option Nat :=
  if op = 0x1 then b1.map fun m => 2 + 8 * ((List.range 6).filter m.getLsbD).length
  else if op = 0x5 then b1.map fun n => 2 + n.toNat
  else if op = 0x8 ∨ op = 0xB then some 2
  else if op = 0xC then some 11
  else some 1

/-- A must-be-zero bit is 1 or a reserved value is used (30_encoding.md R54). -/
def ReservedByTable (op : Nat) (b0 b1 : Byte) : Prop :=
  (op ≠ 0x7 ∧ b0.toNat % 4 ≠ 0)
    ∨ ((op = 0x4 ∨ op = 0xB ∨ op = 0xC) ∧ b0.toNat / 4 % 4 ≠ 0)
    ∨ (op = 0x1 ∧ b1.toNat / 64 ≠ 0)
    ∨ (op = 0x8 ∧ (b1.toNat / 32 ≠ 0 ∨ b1.toNat % 8 = 6 ∨ b1.toNat % 8 = 7 ∨ b1.toNat / 8 % 4 = 3))

/-- The payload length of an `OK` response (30_encoding.md R49). -/
def payloadLength : Instr → Nat
  | .init _ _     => 0
  | .genv4 _      => 0
  | .genv1 _      => 0
  | .v1init       => 0
  | .parse _ _    => 0
  | .tostr _      => 36
  | .eq _ _       => 1
  | .rdf _ _ .int => 8
  | .rdf _ f .bin => fieldWidth f
  | .rdf _ f .hex => fieldWidth f / 4
  | .rdver _      => 1
  | .rdbits _     => 128
  | .rndbits _    => 8
  | .fmt _ l _    => l.toNat

/-- `c` is a digit character of the radix (40_field_codec.md R68). -/
def IsDigitOf (radix : Nat) (c : Byte) : Prop :=
  (0x30 ≤ c.toNat ∧ c.toNat ≤ 0x39 ∧ c.toNat - 0x30 < radix)
    ∨ (0x61 ≤ c.toNat ∧ c.toNat ≤ 0x7A ∧ c.toNat - 0x61 + 10 < radix)

/-- The value of a digit character (30_encoding.md R60). -/
def digitValue (c : Byte) : Nat := if c.toNat ≤ 0x39 then c.toNat - 0x30 else c.toNat - 0x61 + 10

/-- The number a string of digits denotes in a radix, most significant digit first (40_field_codec.md R69). -/
def denoted (radix : Nat) (t : Text) : Nat := t.foldl (fun acc c => acc * radix + digitValue c) 0

/-- A hexadecimal digit in lower case (41_value_type.md R84). -/
def IsLowerHex (c : Byte) : Prop := (0x30 ≤ c.toNat ∧ c.toNat ≤ 0x39) ∨ (0x61 ≤ c.toNat ∧ c.toNat ≤ 0x66)

/-- An upper-case hexadecimal letter. -/
def IsUpperHex (c : Byte) : Prop := 0x41 ≤ c.toNat ∧ c.toNat ≤ 0x46

/-- `'A'..'F'` replaced by `'a'..'f'` (44_parser.md R124). -/
def lowerHex (c : Byte) : Byte := if 0x41 ≤ c.toNat ∧ c.toNat ≤ 0x46 then c + 0x20 else c

/-- The clock sample a command that samples the clock in `s` takes (10_state.md R22). -/
def State.sample (s : State) : BitVec 48 := s.env.clocks.headD (Config.freeNow s.env.sampled)

/-- Draw number `k` (from 0) that a command of state `s` takes: the scripted sample, or the free value where the
script has ended (10_state.md R21). -/
def Env.drawAt (e : Env) (k : Nat) : BitVec 30 := e.draws.getD k (Config.freeDraw (e.drawn + k))

end Sys2Proof.Machine
end

