-- ==== Sys2Proof/Certificates/Slice0/Obligations.lean ====
section
/-! DEFINITION. The statements for the provers, each a Prop, in the order of OBLIGATIONS.json. Each docstring
names the rule of spec/ it formalises. -/

open Sys2Proof Sys2Proof.Machine

/-! ## Encoding -/

/-- Decoding the packet of a command gives the command back, with every operand at every value the encoding
admits (30_encoding.md R46 to R48, R58, R59, R62). -/
def Obligations.DecodeOfEncodeIsTheCommand : Prop :=
  ∀ i : Instr, i.wellFormed = true → decode (encode i) = .ok i

/-- R62: every legal command has exactly one packet; for `INIT`, omitting an operand and sending it as 0 are two
legal packets with the same effect. -/
def Obligations.EveryCommandHasExactlyOnePacket : Prop :=
  (∀ i : Instr, i.wellFormed = true → ∃ pkt, decode pkt = .ok i ∧ ∀ q, decode q = .ok i → q = pkt)
  ∧ (∀ pkt i, decode pkt = .ok i → i.wellFormed = true ∧ pkt = encode i)
  ∧ (∀ d (a b : InitArgs) s,
      a.timeLow.getD 0 = b.timeLow.getD 0 → a.timeMid.getD 0 = b.timeMid.getD 0 →
      a.timeHiAndVersion.getD 0 = b.timeHiAndVersion.getD 0 →
      a.clockSeqHiAndReserved.getD 0 = b.clockSeqHiAndReserved.getD 0 →
      a.clockSeqLow.getD 0 = b.clockSeqLow.getD 0 → a.node.getD 0 = b.node.getD 0 →
      (Instr.init d a).wellFormed = true ∧ (Instr.init d b).wellFormed = true
        ∧ exec (.init d a) s = exec (.init d b) s)

/-- The encoding examples of 30_encoding.md section 9, and `PARSE` with an empty text. -/
def Obligations.SpecExamplePacketsDecode : Prop :=
  decode [0x28] = .ok (.genv4 .u2) ∧ decode [0x30] = .ok (.genv1 .u0) ∧ decode [0x40] = .ok .v1init
  ∧ decode [0x77] = .ok (.eq .u1 .u3) ∧ decode [0x6C] = .ok (.tostr .u3)
  ∧ decode [0x84, 0x12] = .ok (.rdf .u1 .timeHiAndVersion .hex)
  ∧ decode [0x80, 0x05] = .ok (.rdf .u0 .node .int)
  ∧ decode [0x94] = .ok (.rdver .u1) ∧ decode [0xA0] = .ok (.rdbits .u0)
  ∧ decode [0xB0, 0x28] = .ok (.rndbits 40)
  ∧ decode [0xC0, 0x04, 0x10, 0, 0, 0, 0, 0, 0, 0, 0xFF] = .ok (.fmt 255 4 16)
  ∧ decode [0x10, 0x21, 0, 0, 0, 0, 0x12, 0x34, 0x56, 0x78, 0, 0, 0x12, 0x34, 0x56, 0x78, 0x90, 0x12]
      = .ok (.init .u0 ⟨some 0x12345678, none, none, none, none, some 0x123456789012⟩)
  ∧ decode [0x1C, 0x00] = .ok (.init .u3 ⟨none, none, none, none, none, none⟩)
  ∧ decode [0x54, 0x02, 0x61, 0x62] = .ok (.parse .u1 [0x61, 0x62])
  ∧ decode [0x54, 0x00] = .ok (.parse .u1 [])

/-- R53, R54 (with the order of R55): the empty packet, an illegal opcode, a wrong length, a reserved value, and
every other packet, compared with the tables of Safety.lean. -/
def Obligations.DecoderChecksOpcodeThenLengthThenReserved : Prop :=
  decode [] = .error (.badLength 0)
  ∧ (∀ (b0 : Byte) rest, (b0.toNat / 16 = 0 ∨ 13 ≤ b0.toNat / 16) →
      decode (b0 :: rest) = .error (.illegalOpcode b0))
  ∧ (∀ (b0 : Byte) rest, 1 ≤ b0.toNat / 16 → b0.toNat / 16 ≤ 12 →
      lengthByTable (b0.toNat / 16) rest.head? ≠ some (rest.length + 1) →
      decode (b0 :: rest) = .error (.badLength (rest.length + 1)))
  ∧ (∀ (b0 : Byte) rest, 1 ≤ b0.toNat / 16 → b0.toNat / 16 ≤ 12 →
      lengthByTable (b0.toNat / 16) rest.head? = some (rest.length + 1) →
      ReservedByTable (b0.toNat / 16) b0 (rest.headD 0) →
      decode (b0 :: rest) = .error (.reservedField b0) ∨ decode (b0 :: rest) = .error (.reservedField (rest.headD 0)))
  ∧ (∀ (b0 : Byte) rest, 1 ≤ b0.toNat / 16 → b0.toNat / 16 ≤ 12 →
      lengthByTable (b0.toNat / 16) rest.head? = some (rest.length + 1) →
      ¬ ReservedByTable (b0.toNat / 16) b0 (rest.headD 0) →
      ∃ i, decode (b0 :: rest) = .ok i)

/-! ## The field codec -/

/-- R69: the recursion of `Digits`, and that it gives the shortest string of digits that denotes the value. The digit
`0` for the value 0 is a passage the spec marks as general knowledge (log entry 11). -/
def Obligations.DigitsAreTheShortestDigitString : Prop :=
  ∀ value radix, 2 ≤ radix → radix ≤ 36 →
    (value < radix → digits value radix = [digitChar value])
    ∧ (radix ≤ value → digits value radix = digits (value / radix) radix ++ [digitChar (value % radix)])
    ∧ digits 0 radix = [0x30]
    ∧ (∀ c ∈ digits value radix, IsDigitOf radix c) ∧ denoted radix (digits value radix) = value
    ∧ (∀ t : Text, t ≠ [] → (∀ c ∈ t, IsDigitOf radix c) → denoted radix t = value →
        (digits value radix).length ≤ t.length)

/-- R70: under its precondition `AlignNumber` has exactly `length` characters and denotes the value; for
`length >= 1` the precondition is `value < radix^length`; for `length = 0` it never holds. -/
def Obligations.AlignNumberHasItsLengthAndItsValue : Prop :=
  ∀ value length radix, 2 ≤ radix → radix ≤ 36 →
    ((digits value radix).length ≤ length →
      alignNumber value length radix = List.replicate (length - (digits value radix).length) 0x30 ++ digits value radix
      ∧ (alignNumber value length radix).length = length ∧ denoted radix (alignNumber value length radix) = value)
    ∧ (1 ≤ length → ((digits value radix).length ≤ length ↔ value < radix ^ length))
    ∧ ¬ (digits value radix).length ≤ 0

/-- R66: the draws `RandomBits` takes, low part first, that its result is below `2^width`, and that every value
below `2^width` is reached by some draws. -/
def Obligations.RandomBitsComposesItsDraws : Prop :=
  ∀ width, width ≤ 53 →
    (∀ e : Env, width ≤ 30 → randomBits width e = e.draw width)
    ∧ (∀ e : Env, 30 < width →
        (randomBits width e).1 = (e.draw 30).1 + ((e.draw 30).2.draw (width - 30)).1 * 2 ^ 30
        ∧ (randomBits width e).2 = ((e.draw 30).2.draw (width - 30)).2)
    ∧ (∀ e : Env, (randomBits width e).1 < 2 ^ width)
    ∧ (∀ v, v < 2 ^ width → ∃ lo hi, ∀ (e : Env) rest, e.draws = lo :: hi :: rest → (randomBits width e).1 = v)

/-- R71: `RNDBITS width` with `width <= 53` answers a 64-bit integer formed from 0, 1 or 2 draws, below
`2^width`, and changes nothing else. Which bits of a sample a draw takes is the model's choice (log entry 1). -/
def Obligations.RndbitsAnswersARandomInteger : Prop :=
  ∀ (s : State) (p : Port) (w : Byte), s.issuer = some p → w.toNat ≤ 53 →
    ∃ t q payload, exec (.rndbits w) s = .next t ∧ OnlyIssuer s t q ∧ t.v1 = s.v1 ∧ SameClock s.env t.env
      ∧ SameRegs p q ∧ q.fault = p.fault ∧ Answered p q (0x00 :: payload) ∧ payload.length = 8
      ∧ (be64 payload).toNat < 2 ^ w.toNat
      ∧ (w.toNat = 0 → (be64 payload).toNat = 0 ∧ TookDraws 0 s.env t.env)
      ∧ (1 ≤ w.toNat → w.toNat ≤ 30 →
          (be64 payload).toNat = (s.env.drawAt 0).toNat % 2 ^ w.toNat ∧ TookDraws 1 s.env t.env)
      ∧ (30 < w.toNat →
          (be64 payload).toNat
            = (s.env.drawAt 0).toNat + ((s.env.drawAt 1).toNat % 2 ^ (w.toNat - 30)) * 2 ^ 30
          ∧ TookDraws 2 s.env t.env)

/-- R71, R67: `RNDBITS` with `width > 53` faults with `WidthRange` before any draw. -/
def Obligations.RndbitsAboveItsRangeFaults : Prop :=
  ∀ (s : State) (p : Port) (w : Byte), s.issuer = some p → 53 < w.toNat →
    ∃ t q, exec (.rndbits w) s = .next t ∧ OnlyIssuer s t q ∧ t.v1 = s.v1 ∧ t.env = s.env
      ∧ SameRegs p q ∧ Answered p q [0x85] ∧ q.fault = (if p.fault = 0x00 then 0x85 else p.fault)

/-- R72: `FMT` inside its domain answers exactly `length` digits of the radix that denote the value. -/
def Obligations.FmtAnswersThePaddedDigits : Prop :=
  ∀ (s : State) (p : Port) (v : Word64) (l r : Byte), s.issuer = some p →
    2 ≤ r.toNat → r.toNat ≤ 36 → 1 ≤ l.toNat → l.toNat ≤ 128 → v.toNat < r.toNat ^ l.toNat →
    ∃ t q text, exec (.fmt v l r) s = .next t ∧ OnlyIssuer s t q ∧ t.v1 = s.v1 ∧ t.env = s.env
      ∧ SameRegs p q ∧ q.fault = p.fault ∧ Answered p q (0x00 :: text) ∧ text.length = l.toNat
      ∧ (∀ c ∈ text, IsDigitOf r.toNat c) ∧ denoted r.toNat text = v.toNat

/-- R72, R133: `FMT` outside its domain faults: `RadixRange` first, then `FormatOverflow` for `length > 128`,
then `FormatOverflow` for digits that do not fit. -/
def Obligations.FmtOutsideItsDomainFaults : Prop :=
  ∀ (s : State) (p : Port) (v : Word64) (l r : Byte), s.issuer = some p →
    ∀ status : Byte,
      ((r.toNat < 2 ∨ 36 < r.toNat) ∧ status = 0x86)
        ∨ (2 ≤ r.toNat ∧ r.toNat ≤ 36 ∧ (128 < l.toNat ∨ l.toNat = 0 ∨ r.toNat ^ l.toNat ≤ v.toNat) ∧ status = 0x87) →
      ∃ t q, exec (.fmt v l r) s = .next t ∧ OnlyIssuer s t q ∧ t.v1 = s.v1 ∧ t.env = s.env
        ∧ SameRegs p q ∧ Answered p q [status] ∧ q.fault = (if p.fault = 0x00 then status else p.fault)

/-! ## The UUID value type -/

/-- R94: every field within its width, equal arguments give equal values, a change of a field after masking
breaks equality, and the lengths of the two strings and the round trip of the text. -/
def Obligations.ConstructedValuesBehave : Prop :=
  (∀ a0 a1 a2 a3 a4 a5 : Nat,
    (construct a0 a1 a2 a3 a4 a5).timeLow.toNat = a0 % 2 ^ 32
    ∧ (construct a0 a1 a2 a3 a4 a5).timeMid.toNat = a1 % 2 ^ 16
    ∧ (construct a0 a1 a2 a3 a4 a5).timeHiAndVersion.toNat = a2 % 2 ^ 16
    ∧ (construct a0 a1 a2 a3 a4 a5).clockSeqHiAndReserved.toNat = a3 % 2 ^ 8
    ∧ (construct a0 a1 a2 a3 a4 a5).clockSeqLow.toNat = a4 % 2 ^ 8
    ∧ (construct a0 a1 a2 a3 a4 a5).node.toNat = a5 % 2 ^ 48
    ∧ (∀ i, fieldInt (construct a0 a1 a2 a3 a4 a5) i < 2 ^ fieldWidth i)
    ∧ equals (construct a0 a1 a2 a3 a4 a5) (construct a0 a1 a2 a3 a4 a5) = true)
  ∧ (∀ u v : UuidVal, (∃ i, fieldInt u i ≠ fieldInt v i) → equals u v = false)
  ∧ (∀ u : UuidVal, (hexString u).length = 36 ∧ (bitString u).length = 128 ∧ parseText (hexString u) = some u)

/-- R82: the three representations of a field are mutually consistent and have their widths. -/
def Obligations.FieldRepresentationsAgree : Prop :=
  ∀ (u : UuidVal) (i : FieldIx),
    fieldInt u i < 2 ^ fieldWidth i
    ∧ fieldBin u i = alignNumber (fieldInt u i) (fieldWidth i) 2
    ∧ (fieldBin u i).length = fieldWidth i ∧ (∀ c ∈ fieldBin u i, c = 0x30 ∨ c = 0x31)
    ∧ denoted 2 (fieldBin u i) = fieldInt u i
    ∧ fieldHex u i = alignNumber (fieldInt u i) (fieldWidth i / 4) 16
    ∧ (fieldHex u i).length = fieldWidth i / 4 ∧ (∀ c ∈ fieldHex u i, IsLowerHex c)
    ∧ denoted 16 (fieldHex u i) = fieldInt u i

/-- R83: the bit string has 128 characters `'0'` or `'1'`, and character `k` is bit `127 - k` of the six fields
taken in field order. -/
def Obligations.BitStringShowsEveryBitInFieldOrder : Prop :=
  ∀ u : UuidVal,
    bitString u = fieldBin u .timeLow ++ fieldBin u .timeMid ++ fieldBin u .timeHiAndVersion
      ++ fieldBin u .clockSeqHiAndReserved ++ fieldBin u .clockSeqLow ++ fieldBin u .node
    ∧ (bitString u).length = 128
    ∧ ∀ k, k < 128 → (bitString u).getD k 0 =
        (if (u.timeLow ++ u.timeMid ++ u.timeHiAndVersion ++ u.clockSeqHiAndReserved ++ u.clockSeqLow ++ u.node).getLsbD
            (127 - k) then 0x31 else 0x30)

/-- R84: the canonical string has 36 characters, hyphens at 8, 13, 18 and 23, lower-case hex digits elsewhere, and
each field's hex string at its place. -/
def Obligations.HexStringHasTheCanonicalForm : Prop :=
  ∀ u : UuidVal,
    hexString u = fieldHex u .timeLow ++ [0x2D] ++ fieldHex u .timeMid ++ [0x2D] ++ fieldHex u .timeHiAndVersion
      ++ [0x2D] ++ fieldHex u .clockSeqHiAndReserved ++ fieldHex u .clockSeqLow ++ [0x2D] ++ fieldHex u .node
    ∧ (hexString u).length = 36
    ∧ (∀ k, k < 36 → if k = 8 ∨ k = 13 ∨ k = 18 ∨ k = 23 then (hexString u).getD k 0 = 0x2D
        else IsLowerHex ((hexString u).getD k 0))
    ∧ ((hexString u).drop 0).take 8 = fieldHex u .timeLow ∧ ((hexString u).drop 9).take 4 = fieldHex u .timeMid
    ∧ ((hexString u).drop 14).take 4 = fieldHex u .timeHiAndVersion
    ∧ ((hexString u).drop 19).take 2 = fieldHex u .clockSeqHiAndReserved
    ∧ ((hexString u).drop 21).take 2 = fieldHex u .clockSeqLow ∧ ((hexString u).drop 24).take 12 = fieldHex u .node

/-- R85: the 128-bit integer and its inverse, and both strings as its digits. -/
def Obligations.StringsAreTheDigitsOfThe128BitInteger : Prop :=
  (∀ u : UuidVal,
    pack128 u = u.timeLow.toNat * 2 ^ 96 + u.timeMid.toNat * 2 ^ 80 + u.timeHiAndVersion.toNat * 2 ^ 64
      + u.clockSeqHiAndReserved.toNat * 2 ^ 56 + u.clockSeqLow.toNat * 2 ^ 48 + u.node.toNat
    ∧ bitString u = alignNumber (pack128 u) 128 2
    ∧ (hexString u).filter (fun c => c ≠ 0x2D) = alignNumber (pack128 u) 32 16
    ∧ unpack128 (pack128 u) = u)
  ∧ (∀ x, x < 2 ^ 128 →
      unpack128 x = construct (x / 2 ^ 96 % 2 ^ 32) (x / 2 ^ 80 % 2 ^ 16) (x / 2 ^ 64 % 2 ^ 16) (x / 2 ^ 56 % 2 ^ 8)
        (x / 2 ^ 48 % 2 ^ 8) (x % 2 ^ 48)
      ∧ pack128 (unpack128 x) = x)

/-- R86: equality of two values is equality of the six integers, an equivalence, and the same as equality of the
128-bit integers and of the canonical strings. -/
def Obligations.EqualityComparesTheSixIntegers : Prop :=
  (∀ u v : UuidVal,
    (equals u v = true ↔ u.timeLow = v.timeLow ∧ u.timeMid = v.timeMid ∧ u.timeHiAndVersion = v.timeHiAndVersion
      ∧ u.clockSeqHiAndReserved = v.clockSeqHiAndReserved ∧ u.clockSeqLow = v.clockSeqLow ∧ u.node = v.node)
    ∧ (equals u v = true ↔ pack128 u = pack128 v) ∧ (equals u v = true ↔ hexString u = hexString v))
  ∧ (∀ u, equals u u = true) ∧ (∀ u v, equals u v = true → equals v u = true)
  ∧ (∀ u v w, equals u v = true → equals v w = true → equals u w = true)

/-- R87, R80, R58: `INIT` makes `Ud` the value of its operands, each masked to its field, an omitted one 0, and
changes nothing else. -/
def Obligations.InitWritesItsMaskedOperands : Prop :=
  ∀ (s : State) (p : Port) (d : UReg) (a : InitArgs), s.issuer = some p →
    ∃ t q u, exec (.init d a) s = .next t ∧ OnlyIssuer s t q ∧ t.v1 = s.v1 ∧ t.env = s.env
      ∧ q.getU d = some u ∧ SameRegsBut d p q ∧ q.fault = p.fault ∧ Answered p q [0x00]
      ∧ u.timeLow.toNat = (a.timeLow.getD 0).toNat % 2 ^ 32
      ∧ u.timeMid.toNat = (a.timeMid.getD 0).toNat % 2 ^ 16
      ∧ u.timeHiAndVersion.toNat = (a.timeHiAndVersion.getD 0).toNat % 2 ^ 16
      ∧ u.clockSeqHiAndReserved.toNat = (a.clockSeqHiAndReserved.getD 0).toNat % 2 ^ 8
      ∧ u.clockSeqLow.toNat = (a.clockSeqLow.getD 0).toNat % 2 ^ 8
      ∧ u.node.toNat = (a.node.getD 0).toNat % 2 ^ 48

/-- R88, R90, R91, R92: `TOSTR`, `RDF`, `RDVER` and `RDBITS` of a present register answer its canonical string, the
field in the asked representation, its version nibble, its bit string, and change nothing else. -/
def Obligations.ReadCommandsAnswerAPresentSubject : Prop :=
  ∀ (s : State) (p : Port) (r : UReg) (u : UuidVal), s.issuer = some p → p.getU r = some u →
    ∀ i payload,
      (i = .tostr r ∧ payload = hexString u)
        ∨ (i = .rdver r ∧ payload = [BitVec.ofNat 8 (u.timeHiAndVersion.toNat / 4096)])
        ∨ (i = .rdbits r ∧ payload = bitString u)
        ∨ (∃ f, i = .rdf r f .int ∧ payload.length = 8 ∧ (be64 payload).toNat = fieldInt u f)
        ∨ (∃ f, i = .rdf r f .bin ∧ payload = fieldBin u f)
        ∨ (∃ f, i = .rdf r f .hex ∧ payload = fieldHex u f) →
      ∃ t q, exec i s = .next t ∧ OnlyIssuer s t q ∧ t.v1 = s.v1 ∧ t.env = s.env
        ∧ SameRegs p q ∧ q.fault = p.fault ∧ Answered p q (0x00 :: payload)

/-- R89: `EQ` with a present subject answers 0x01 exactly when the second register is present and all six integers
agree; an absent second register is not a fault. -/
def Obligations.EqAnswersFieldwiseEquality : Prop :=
  ∀ (s : State) (p : Port) (a b : UReg) (u : UuidVal), s.issuer = some p → p.getU a = some u →
    ∃ t q, exec (.eq a b) s = .next t ∧ OnlyIssuer s t q ∧ t.v1 = s.v1 ∧ t.env = s.env
      ∧ SameRegs p q ∧ q.fault = p.fault
      ∧ Answered p q [0x00, if p.getU b = some u then 0x01 else 0x00]

/-- R88 to R92, R12: a command whose subject register is absent faults with `AbsentOperand`. -/
def Obligations.AbsentSubjectFaults : Prop :=
  ∀ (s : State) (p : Port) (r : UReg), s.issuer = some p → p.getU r = none →
    ∀ i, (i = .tostr r ∨ (∃ b, i = .eq r b) ∨ (∃ f k, i = .rdf r f k) ∨ i = .rdver r ∨ i = .rdbits r) →
      ∃ t q, exec i s = .next t ∧ OnlyIssuer s t q ∧ t.v1 = s.v1 ∧ t.env = s.env
        ∧ SameRegs p q ∧ Answered p q [0x84] ∧ q.fault = (if p.fault = 0x00 then 0x84 else p.fault)

/-- R93: only the four constructing commands write a UUID register, and only their destination; a register is made
absent only by `PARSE`. -/
def Obligations.OnlyConstructingCommandsWriteRegisters : Prop :=
  ∀ (i : Instr) (s t : State) (p : Port), s.issuer = some p → exec i s = .next t →
    ∃ q, OnlyIssuer s t q ∧ (∀ r, destOf i ≠ some r → q.getU r = p.getU r)
      ∧ (∀ r, destOf i = some r → q.getU r = none → ∃ text, i = .parse r text)

/-! ## The version-4 generator -/

/-- R100: the eight draws, in order, and the value made of them. Which bits of a sample a draw takes is the model's
choice (log entry 1). -/
def Obligations.GenV4DrawsInFieldOrder : Prop :=
  ∀ e : Env,
    TookDraws 8 e (genV4 e).2 ∧ SameClock e (genV4 e).2
    ∧ (genV4 e).1.timeLow.toNat = (e.drawAt 0).toNat + ((e.drawAt 1).toNat % 2 ^ 2) * 2 ^ 30
    ∧ (genV4 e).1.timeMid.toNat = (e.drawAt 2).toNat % 2 ^ 16
    ∧ (genV4 e).1.timeHiAndVersion.toNat = (e.drawAt 3).toNat % 2 ^ 12 + 0x4000
    ∧ (genV4 e).1.clockSeqHiAndReserved.toNat = (e.drawAt 4).toNat % 2 ^ 6 + 0x80
    ∧ (genV4 e).1.clockSeqLow.toNat = (e.drawAt 5).toNat % 2 ^ 8
    ∧ (genV4 e).1.node.toNat = (e.drawAt 6).toNat + ((e.drawAt 7).toNat % 2 ^ 18) * 2 ^ 30

/-- R101, R102: `GENV4` puts a version-4, variant-`10` value into `Ud` and touches nothing but `Ud` and the random
source. -/
def Obligations.Genv4WritesAVersion4Uuid : Prop :=
  ∀ (s : State) (p : Port) (d : UReg), s.issuer = some p →
    ∃ t q u, exec (.genv4 d) s = .next t ∧ OnlyIssuer s t q ∧ t.v1 = s.v1
      ∧ TookDraws 8 s.env t.env ∧ SameClock s.env t.env
      ∧ q.getU d = some u ∧ SameRegsBut d p q ∧ q.fault = p.fault ∧ Answered p q [0x00]
      ∧ u = (genV4 s.env).1 ∧ version u = 4 ∧ u.clockSeqHiAndReserved.extractLsb' 6 2 = 0b10
      ∧ parseText (hexString u) = some u

/-! ## The version-1 generator -/

/-- R105, R106: `V1INIT` creates the generator state from three draws if it does not exist, and has no effect and
takes no draw if it does. Which bits of a sample a draw takes is the model's choice (log entry 1). -/
def Obligations.V1initCreatesTheGeneratorStateOnce : Prop :=
  ∀ (s : State) (p : Port), s.issuer = some p →
    ∃ t q, exec .v1init s = .next t ∧ OnlyIssuer s t q ∧ SameRegs p q ∧ q.fault = p.fault ∧ Answered p q [0x00]
      ∧ SameClock s.env t.env ∧ t.v1.inited = true
      ∧ (s.v1.inited = true → t.v1 = s.v1 ∧ t.env = s.env)
      ∧ (s.v1.inited = false →
          TookDraws 3 s.env t.env ∧ t.v1.timestamp = 0 ∧ t.v1.tick = 0
          ∧ t.v1.sequence.toNat = (s.env.drawAt 0).toNat % 2 ^ 14
          ∧ t.v1.node = BitVec.ofNat 48 ((s.env.drawAt 1).toNat + ((s.env.drawAt 2).toNat % 2 ^ 18) * 2 ^ 30) ||| 1
          ∧ t.v1.node.getLsbD 0 = true)

/-- R107: the split of the 60-bit count, exact while it fits, and its value at the epoch. The epoch offset is a number
the spec marks as general knowledge (log entry 10). -/
def Obligations.TimeFieldsSplitThe60BitCount : Prop :=
  (∀ ms, ms < 2 ^ 48 →
    timeFieldLow ms < 2 ^ 32 ∧ timeFieldMid ms < 2 ^ 16 ∧ timeFieldHigh ms < 2 ^ 12
    ∧ timeFieldLow ms + timeFieldMid ms * 2 ^ 32 + timeFieldHigh ms * 2 ^ 48
        = ((ms + 12219292800000) * 10000) % 2 ^ 60
    ∧ (ms ≤ 103072857660684 →
        timeFieldLow ms + timeFieldMid ms * 2 ^ 32 + timeFieldHigh ms * 2 ^ 48 = (ms + 12219292800000) * 10000)
    ∧ (103072857660684 < ms →
        timeFieldLow ms + timeFieldMid ms * 2 ^ 32 + timeFieldHigh ms * 2 ^ 48 < (ms + 12219292800000) * 10000))
  ∧ timeFieldLow 0 = 0x13814000 ∧ timeFieldMid 0 = 0x1DD2 ∧ timeFieldHigh 0 = 0x1B2

/-- R108: the four cases of the clock arbiter inside a `GENV1` on an initialised state: new `timestamp`, `tick` and
`sequence`, and the draws taken. Which bits of a sample the coin is, is the model's choice (log entry 1). -/
def Obligations.ClockArbiterHasFourCases : Prop :=
  ∀ (s t : State) (p : Port) (d : UReg), s.issuer = some p → s.v1.inited = true → exec (.genv1 d) s = .next t →
    (s.v1.timestamp.toNat < s.sample.toNat →
      t.v1 = { s.v1 with timestamp := s.sample, tick := 0 } ∧ TookDraws 0 s.env t.env)
    ∧ (s.sample.toNat < s.v1.timestamp.toNat →
      t.v1 = { s.v1 with timestamp := s.sample, tick := 0, sequence := t.v1.sequence }
      ∧ t.v1.sequence.toNat = (s.v1.sequence.toNat + 1) % 2 ^ 14 ∧ TookDraws 0 s.env t.env)
    ∧ (s.sample = s.v1.timestamp → (s.env.drawAt 0).toNat % 8 = 0 → s.v1.tick.toNat < 9999 →
      t.v1 = { s.v1 with tick := t.v1.tick } ∧ t.v1.tick.toNat = s.v1.tick.toNat + 1 ∧ TookDraws 1 s.env t.env)
    ∧ (s.sample = s.v1.timestamp → ((s.env.drawAt 0).toNat % 8 ≠ 0 ∨ 9999 ≤ s.v1.tick.toNat) →
      t.v1 = { s.v1 with sequence := t.v1.sequence }
      ∧ t.v1.sequence.toNat = (s.v1.sequence.toNat + 1) % 2 ^ 14 ∧ TookDraws 1 s.env t.env)

/-- R109: the clock-sequence fields, their ranges, and that the sequence can be recovered from them. -/
def Obligations.ClockSequenceIsRecoverable : Prop :=
  ∀ seq : BitVec 14,
    clockSeqHi seq = seq.toNat / 256 + 0x80 ∧ clockSeqLo seq = seq.toNat % 256
    ∧ 0x80 ≤ clockSeqHi seq ∧ clockSeqHi seq ≤ 0xBF ∧ clockSeqLo seq ≤ 0xFF
    ∧ (clockSeqHi seq &&& 0x3F) * 256 + clockSeqLo seq = seq.toNat

/-- R110, R112: `GENV1` creates the state if needed, samples the clock once, and puts into `Ud` a version-1,
variant-`10` value of the updated state: `tick` added to the low 32 bits with its carry lost, the node, the clock
sequence. Bit 0 of the node is 1 wherever the invariant of `V1` holds (R26), and without it where `V1` is not yet
initialised. It takes three draws to create the state and one for the coin of an unchanged clock, no others. Beside
`Ud`, `V1`, the draws and the clock sample it changes nothing; `tick` and `sequence` change as
`ClockArbiterHasFourCases` and `FirstGenv1CreatesTheGeneratorState` say. The time fields rest on the epoch offset
(log entry 10). -/
def Obligations.Genv1WritesAVersion1Uuid : Prop :=
  ∀ (s : State) (p : Port) (d : UReg), s.issuer = some p →
    ∃ t q u, exec (.genv1 d) s = .next t ∧ OnlyIssuer s t q
      ∧ q.getU d = some u ∧ SameRegsBut d p q ∧ q.fault = p.fault ∧ Answered p q [0x00]
      ∧ t.env.clocks = s.env.clocks.drop 1 ∧ t.env.sampled = s.env.sampled + 1
      ∧ t.env.picks = s.env.picks ∧ t.env.picked = s.env.picked
      ∧ t.v1.inited = true ∧ t.v1.timestamp = s.sample
      ∧ (s.v1.inited = true → t.v1.node = s.v1.node)
      ∧ u.timeLow.toNat = (timeFieldLow s.sample.toNat + t.v1.tick.toNat) % 2 ^ 32
      ∧ u.timeMid.toNat = timeFieldMid s.sample.toNat
      ∧ u.timeHiAndVersion.toNat = timeFieldHigh s.sample.toNat + 0x1000
      ∧ version u = 1 ∧ u.clockSeqHiAndReserved.extractLsb' 6 2 = 0b10
      ∧ (u.clockSeqHiAndReserved.toNat &&& 0x3F) * 256 + u.clockSeqLow.toNat = t.v1.sequence.toNat
      ∧ u.node = t.v1.node ∧ parseText (hexString u) = some u
      ∧ (s.v1.Inv → u.node.getLsbD 0 = true) ∧ (s.v1.inited = false → u.node.getLsbD 0 = true)
      ∧ TookDraws ((if s.v1.inited = true then 0 else 3)
          + (if s.sample = (if s.v1.inited = true then s.v1.timestamp else 0) then 1 else 0)) s.env t.env

/-- R111: the first `GENV1` after reset creates the state inside its own step, before the clock is sampled, with
the draws of `V1Init` first and the coin, taken only for a sample of 0, after them. Which bits of a sample a draw
takes is the model's choice (log entry 1). -/
def Obligations.FirstGenv1CreatesTheGeneratorState : Prop :=
  ∀ (s t : State) (p : Port) (d : UReg), s.issuer = some p → s.v1.inited = false → exec (.genv1 d) s = .next t →
    t.v1.node = BitVec.ofNat 48 ((s.env.drawAt 1).toNat + ((s.env.drawAt 2).toNat % 2 ^ 18) * 2 ^ 30) ||| 1
    ∧ (s.sample.toNat ≠ 0 →
        t.v1.sequence.toNat = (s.env.drawAt 0).toNat % 2 ^ 14 ∧ t.v1.tick = 0 ∧ TookDraws 3 s.env t.env)
    ∧ (s.sample.toNat = 0 → (s.env.drawAt 3).toNat % 8 = 0 →
        t.v1.sequence.toNat = (s.env.drawAt 0).toNat % 2 ^ 14 ∧ t.v1.tick = 1 ∧ TookDraws 4 s.env t.env)
    ∧ (s.sample.toNat = 0 → (s.env.drawAt 3).toNat % 8 ≠ 0 →
        t.v1.sequence.toNat = ((s.env.drawAt 0).toNat % 2 ^ 14 + 1) % 2 ^ 14 ∧ t.v1.tick = 0
        ∧ TookDraws 4 s.env t.env)

/-- R113: of two successive `GENV1` commands, on any ports, the second of which sees an earlier clock, the second
leaves the sequence one greater modulo 2^14, and the clock-sequence fields of the two values differ. -/
def Obligations.RegressionAdvancesTheSequence : Prop :=
  ∀ (s t s' t' : State) (p p' q q' : Port) (d d' : UReg) (u u' : UuidVal),
    s.issuer = some p → exec (.genv1 d) s = .next t → t.issuer = some q → q.getU d = some u →
    s'.v1 = t.v1 → s'.issuer = some p' → exec (.genv1 d') s' = .next t' → t'.issuer = some q' →
    q'.getU d' = some u' → s'.sample.toNat < s.sample.toNat →
      t'.v1.sequence.toNat = (t.v1.sequence.toNat + 1) % 2 ^ 14
      ∧ (u'.clockSeqHiAndReserved, u'.clockSeqLow) ≠ (u.clockSeqHiAndReserved, u.clockSeqLow)

/-! ## The parser -/

/-- R120: a text is accepted exactly when it has 36 characters, hyphens at 8, 13, 18 and 23, and hex digits of
either case everywhere else. -/
def Obligations.ParserAcceptsExactlyTheCanonicalPattern : Prop :=
  ∀ s : Text, (parseText s).isSome = true ↔
    s.length = 36 ∧ s.getD 8 0 = 0x2D ∧ s.getD 13 0 = 0x2D ∧ s.getD 18 0 = 0x2D ∧ s.getD 23 0 = 0x2D
    ∧ ∀ k, k < 36 → k ≠ 8 → k ≠ 13 → k ≠ 18 → k ≠ 23 → IsLowerHex (s.getD k 0) ∨ IsUpperHex (s.getD k 0)

/-- R121: the value of a string of hex digits is the sum of its digits' values by place. -/
def Obligations.HexIntSumsItsDigitsByPlace : Prop :=
  ∀ t : Text, t ≠ [] → (∀ c ∈ t, IsLowerHex c ∨ IsUpperHex c) →
    hexInt t = ((List.range t.length).map fun i => hexVal (t.getD i 0) * 16 ^ (t.length - 1 - i)).sum
    ∧ ∀ c ∈ t, (0x30 ≤ c.toNat ∧ c.toNat ≤ 0x39 → hexVal c = c.toNat - 0x30)
        ∧ (0x61 ≤ c.toNat ∧ c.toNat ≤ 0x66 → hexVal c = c.toNat - 0x61 + 10)
        ∧ (0x41 ≤ c.toNat ∧ c.toNat ≤ 0x46 → hexVal c = c.toNat - 0x41 + 10)

/-- R124: parsing the canonical string of a value gives the value; in the other direction the canonical string of
a parsed text is the text in lower case, and the text itself exactly when it has no upper-case digit. -/
def Obligations.ParsingInvertsPrinting : Prop :=
  (∀ u : UuidVal, parseText (hexString u) = some u)
  ∧ ∀ (s : Text) (u : UuidVal), parseText s = some u →
      hexString u = s.map lowerHex ∧ (hexString u = s ↔ ∀ c ∈ s, ¬ IsUpperHex c)

/-- R123: `PARSE` writes its result to `Ud`, present with status `OK` or absent with status `ABSENT`, records no
fault, and changes nothing else. -/
def Obligations.ParseWritesItsResultPresentOrAbsent : Prop :=
  ∀ (s : State) (p : Port) (d : UReg) (text : Text), s.issuer = some p →
    ∃ t q, exec (.parse d text) s = .next t ∧ OnlyIssuer s t q ∧ t.v1 = s.v1 ∧ t.env = s.env
      ∧ q.getU d = parseText text ∧ SameRegsBut d p q ∧ q.fault = p.fault
      ∧ (∀ u, parseText text = some u → Answered p q [0x00])
      ∧ (parseText text = none → Answered p q [0x01])

/-! ## Faults and responses -/

/-- R132: a command whose response is a fault status wrote nothing but `FAULT[p]` (first fault wins), took no draw
and no clock sample, and answered the status byte alone. -/
def Obligations.FaultingCommandsArePrecise : Prop :=
  ∀ (s s1 t : State) (pkt : Packet) (p q : Port) (status : Byte) (payload : List Byte),
    s.resetReq = false → s.fetch = some (pkt, s1) → s1.issuer = some p → step s = .next t → t.issuer = some q →
    q.responses = p.responses ++ [status :: payload] → status.msb = true →
      OnlyIssuer s1 t q ∧ t.v1 = s.v1 ∧ t.env = s1.env ∧ t.env.draws = s.env.draws ∧ t.env.drawn = s.env.drawn
      ∧ t.env.clocks = s.env.clocks ∧ t.env.sampled = s.env.sampled ∧ SameRegs p q
      ∧ q.fault = (if p.fault = 0x00 then status else p.fault) ∧ payload = []

/-- R131, R132 for packets that do not decode: the step answers the status byte of the decoder's fault (0x81 illegal
opcode, 0x82 bad length, 0x83 reserved field), sets `FAULT[p]` if it was 0x00, and does nothing else. -/
def Obligations.UndecodablePacketsFault : Prop :=
  ∀ (s s1 : State) (pkt : Packet) (p : Port) (f : CmdFault),
    s.resetReq = false → s.fetch = some (pkt, s1) → s1.issuer = some p → decode pkt = .error f →
      ∃ t q status, step s = .next t ∧ OnlyIssuer s1 t q ∧ t.v1 = s.v1 ∧ t.env = s1.env ∧ SameRegs p q
        ∧ Answered p q [status] ∧ q.fault = (if p.fault = 0x00 then status else p.fault)
        ∧ (((∃ b, f = .illegalOpcode b) ∧ status = 0x81) ∨ ((∃ n, f = .badLength n) ∧ status = 0x82)
            ∨ ((∃ b, f = .reservedField b) ∧ status = 0x83))

/-- R49: every command produces exactly one response: a status byte, and a payload, of the length the command's
row gives, only with status `OK`; only `PARSE` answers `ABSENT`. -/
def Obligations.EveryCommandAnswersOnce : Prop :=
  ∀ (i : Instr) (s t : State) (p : Port), s.issuer = some p → exec i s = .next t →
    ∃ q status payload, OnlyIssuer s t q ∧ Answered p q (status :: payload)
      ∧ (status.toNat ≤ 1 ∨ (0x81 ≤ status.toNat ∧ status.toNat ≤ 0x87))
      ∧ (status = 0x00 → payload.length = payloadLength i) ∧ (status ≠ 0x00 → payload = [])
      ∧ (status = 0x01 → ∃ d text, i = .parse d text)
      ∧ (∀ a b, i = .eq a b → ∀ c ∈ payload, c = 0x00 ∨ c = 0x01)
      ∧ (∀ u, i = .rdver u → ∀ c ∈ payload, c.toNat ≤ 0x0F)

/-- R15: `FAULT[p]` changes only from 0x00, to the fault status the port answers in that very step, and is cleared
by nothing but reset. -/
def Obligations.FaultRegisterIsSticky : Prop :=
  ∀ (s t : State) (n : Nat) (c d : Port), s.resetReq = false → step s = .next t →
    s.ports[n]? = some c → t.ports[n]? = some d →
      (c.fault ≠ 0x00 → d.fault = c.fault)
      ∧ (c.fault = 0x00 → d.fault ≠ 0x00 →
          d.responses = c.responses ++ [[d.fault]] ∧ 0x81 ≤ d.fault.toNat ∧ d.fault.toNat ≤ 0x87)

/-! ## The machine -/

/-- One step runs the decoded command: where the arbiter hands over a packet that decodes to a command, the step is
that command on the state with the packet taken from its port's queue; a packet that does not decode faults; with
no command waiting nothing happens (00_scope.md R8; 20_memory.md R36, R37; 60_exceptions.md R144). The hand-over takes
no draw and no clock sample (10_state.md R21, R22) and at most one arbiter choice. The queues and the idle step are the
model's choice (log entry 4), and so is how the arbiter's choice is scripted (log entry 3). -/
def Obligations.StepRunsTheDecodedCommand : Prop :=
  ∀ s : State, s.resetReq = false →
    (∀ pkt s1, s.fetch = some (pkt, s1) →
      (∃ c rest, s.ports[s1.cur]? = some c ∧ c.queue = pkt :: rest
        ∧ s1.ports = s.ports.set s1.cur { c with queue := rest } ∧ s1.v1 = s.v1 ∧ s1.resetReq = s.resetReq
        ∧ s1.env.draws = s.env.draws ∧ s1.env.drawn = s.env.drawn ∧ s1.env.clocks = s.env.clocks
        ∧ s1.env.sampled = s.env.sampled ∧ (s1.env = s.env ∨ s1.env = s.env.pick.2))
      ∧ (∀ i, decode pkt = .ok i → step s = exec i s1) ∧ (∀ f, decode pkt = .error f → step s = s1.raise f))
    ∧ (s.fetch = none ↔ s.pending = 0) ∧ (s.pending = 0 → step s = .next s)

/-- A step always answers a next state: no packet, no operand and no state stops the block (60_exceptions.md R135:
after a fault the port is not wedged; 20_memory.md R42: every command terminates). That a command has an issuing
port is the model's premise (log entry 8). -/
def Obligations.EveryStepAnswersANextState : Prop :=
  (∀ s : State, ∃ t, step s = .next t) ∧ (∀ (i : Instr) (s : State) (p : Port), s.issuer = some p → ∃ t, exec i s = .next t)

/-- Any port that has a command waiting may be the one the arbiter serves, and it serves that port's oldest command
(20_memory.md R36, R37). How the choice is scripted is the model's choice (log entry 3). -/
def Obligations.ArbiterMayServeAnyWaitingPort : Prop :=
  ∀ (s : State) (n : Nat) (c : Port) (pkt : Packet) (rest : List Packet),
    s.ports[n]? = some c → c.queue = pkt :: rest →
    ∃ picks s1, ({ s with env := { s.env with picks := picks } } : State).fetch = some (pkt, s1)
      ∧ s1.cur = n ∧ s1.ports = s.ports.set n { c with queue := rest }
      ∧ s1.env.draws = s.env.draws ∧ s1.env.clocks = s.env.clocks

/-- Whatever the arbiter picks, as many steps as commands wait execute them all, and every port has then given one
response for each of its commands (20_memory.md R42; 70_reset_and_hazards.md R161). No new packet arrives in these
steps; `EverySentCommandIsEventuallyExecuted` is about runs in which packets keep arriving. -/
def Obligations.EveryWaitingCommandIsAnswered : Prop :=
  ∀ s : State, s.resetReq = false →
    ∃ t, Host.Core.run Sys2Proof.core s.pending s = .next t ∧ t.pending = 0 ∧ t.ports.length = s.ports.length
      ∧ ∀ (n : Nat) (c : Port), s.ports[n]? = some c →
          ∃ (d : Port) (new : List Packet), t.ports[n]? = some d ∧ d.queue = [] ∧ d.responses = c.responses ++ new
            ∧ new.length = c.queue.length

/-- R26: the invariants of the state are kept by every step. -/
def Obligations.EveryStepKeepsTheInvariant : Prop :=
  ∀ s t : State, s.Inv → step s = .next t → t.Inv

/-- The reset state has the invariant, with any number of ports from one on. -/
def Obligations.ResetHasTheInvariant : Prop :=
  State.reset.Inv ∧ ∀ n, 1 ≤ n → (State.resetWith n).Inv

/-- R25: what reset leaves, and that the four components of `V1` it leaves unspecified cannot be observed: from two
states that differ only in them, while `V1.inited = 0`, one command gives the same responses, registers, inputs and,
once `V1` exists, the same `V1`. That `State.reset` has one port is the default of 00_scope.md R5, which the model
chose (log entry 7). -/
def Obligations.ResetStateAndItsUnobservableParts : Prop :=
  (∀ n, (State.resetWith n).ports.length = n ∧ (State.resetWith n).v1.inited = false
    ∧ ∀ c ∈ (State.resetWith n).ports, (∀ r, c.getU r = none) ∧ c.fault = 0x00)
  ∧ State.reset = State.resetWith 1
  ∧ (∀ (i : Instr) (s t : State) (p : Port) (v : V1State),
      s.issuer = some p → s.v1.inited = false → v.inited = false → exec i s = .next t →
      ∃ t', exec i { s with v1 := v } = .next t' ∧ t'.ports = t.ports ∧ t'.env = t.env ∧ t'.cur = t.cur
        ∧ t'.resetReq = t.resetReq ∧ t'.v1.inited = t.v1.inited ∧ (t.v1.inited = true → t'.v1 = t.v1))

/-- R151: a reset leaves every register absent, every `FAULT` 0x00 and `V1` not initialised, discards the waiting
commands without a response, and does not affect the environment inputs (random source, clock, arbiter choices). That
the responses given before stay recorded is the model's choice (log entry 5), and so is that reset is a field, the
reset input, which the step that performs the reset clears (log entry 9). -/
def Obligations.ResetInputResetsTheBlock : Prop :=
  ∀ s : State, s.resetReq = true →
    ∃ t, step s = .next t ∧ t.v1.inited = false ∧ t.env = s.env ∧ t.resetReq = false
      ∧ t.ports.length = s.ports.length
      ∧ ∀ (n : Nat) (c : Port), s.ports[n]? = some c →
          ∃ d : Port, t.ports[n]? = some d ∧ (∀ r, d.getU r = none) ∧ d.fault = 0x00 ∧ d.queue = []
            ∧ d.responses = c.responses

/-- Once created, the generator state exists until reset, its node never changes, and only `GENV1` changes the rest
of it (10_state.md R16, R19, R27; 43_gen_v1.md R106). -/
def Obligations.GeneratorStateLivesUntilReset : Prop :=
  (∀ s t : State, s.resetReq = false → s.v1.inited = true → step s = .next t →
    t.v1.inited = true ∧ t.v1.node = s.v1.node)
  ∧ (∀ (i : Instr) (s t : State), s.v1.inited = true → exec i s = .next t → (∀ d, i ≠ .genv1 d) → t.v1 = s.v1)

/-- R38: a command other than `GENV1` and `V1INIT` touches only the issuing port's registers; which commands take
draws and which sample the clock. -/
def Obligations.OnlyGeneratorCommandsTouchSharedState : Prop :=
  ∀ (i : Instr) (s t : State), exec i s = .next t →
    (i ≠ .v1init → (∀ d, i ≠ .genv1 d) → t.v1 = s.v1)
    ∧ ((∀ d, i ≠ .genv1 d) → SameClock s.env t.env)
    ∧ (i ≠ .v1init → (∀ d, i ≠ .genv1 d) → (∀ d, i ≠ .genv4 d) → (∀ w, i ≠ .rndbits w) → t.env = s.env)
    ∧ (∀ n, n ≠ s.cur → t.ports[n]? = s.ports[n]?)

/-- A port can neither name nor learn anything of another port's registers and `FAULT`: from two states that agree
on the issuing port, on `V1` and on the inputs, a command does the same to all three (60_exceptions.md R140;
10_state.md R12). -/
def Obligations.PortsAreIsolated : Prop :=
  ∀ (i : Instr) (s s' : State) (p : Port), s.issuer = some p → s'.issuer = some p → s.v1 = s'.v1 → s.env = s'.env →
    ∃ t t' q, exec i s = .next t ∧ exec i s' = .next t' ∧ t.issuer = some q ∧ t'.issuer = some q
      ∧ t.v1 = t'.v1 ∧ t.env = t'.env

/-- `FAULT[p]` is not readable through any command: with another value in it, a command gives the same response,
registers, `V1` and inputs (10_state.md R15). -/
def Obligations.FaultRegisterIsUnreadable : Prop :=
  ∀ (i : Instr) (s t : State) (p : Port) (f : Byte), s.issuer = some p → exec i s = .next t →
    ∃ t' q q', exec i (s.setIssuer { p with fault := f }) = .next t' ∧ t.issuer = some q ∧ t'.issuer = some q'
      ∧ q'.responses = q.responses ∧ SameRegs q q' ∧ q'.queue = q.queue ∧ t'.v1 = t.v1 ∧ t'.env = t.env

/-- The read commands change no state but through a fault and give the same response when repeated; `INIT` and
`PARSE` repeated write the same value; `V1INIT` repeated does nothing (20_memory.md R35). -/
def Obligations.RepeatingAReadGivesTheSameResponse : Prop :=
  ∀ (i : Instr) (s t t' : State) (p q q' : Port), s.issuer = some p →
    exec i s = .next t → t.issuer = some q → exec i t = .next t' → t'.issuer = some q' →
    (isRead i = true → SameRegs p q ∧ t.v1 = s.v1 ∧ t.env = s.env ∧ q'.fault = q.fault
      ∧ ∃ resp, q.responses = p.responses ++ [resp] ∧ q'.responses = p.responses ++ [resp, resp])
    ∧ ((∃ d a, i = .init d a) ∨ (∃ d text, i = .parse d text) ∨ i = .v1init →
        SameRegs q q' ∧ t'.v1 = t.v1 ∧ t'.env = t.env)

/-! ## Runs -/

/-- In every run, whatever packets keep arriving on whatever ports, each command sent is eventually executed: from any
step on, every port comes to give one response for each command it has waiting there (20_memory.md R36, R42). It rests
on the weak fairness of the arbiter, whose form in a run is the model's choice (log entry 14). -/
def Obligations.EverySentCommandIsEventuallyExecuted : Prop :=
  ∀ τ : Nat → State, Run τ → ∀ (k n : Nat) (c : Port), (τ k).ports[n]? = some c →
    ∃ (m : Nat) (d : Port) (new : List Packet), k ≤ m ∧ (τ m).ports[n]? = some d
      ∧ d.responses = c.responses ++ new ∧ new.length = c.queue.length

/-- Weak fairness takes no finite behaviour away: every finite sequence of steps and inputs goes on to a run, whatever
packets the hosts send after it, so every interleaving of the ports stays admitted (20_memory.md R36, R42). That
fairness is a property of runs and not of a step is the model's choice (log entry 14). -/
def Obligations.FairnessRestrictsNoFiniteSchedule : Prop :=
  ∀ (K : Nat) (σ : Nat → State) (sends : Nat → Nat → List Packet),
    (∀ k, k < K → Advances σ k) → (σ K).resetReq = false →
    ∃ τ : Nat → State, Run τ ∧ (∀ k, k ≤ K → τ k = σ k)
      ∧ ∀ k, K ≤ k → ∃ t, step (τ k) = .next t ∧ ∀ (n : Nat) (c : Port), t.ports[n]? = some c →
          (τ (k + 1)).ports[n]? = some { c with queue := c.queue ++ sends k n }
end

