-- ==== Sys2Proof/Laws/State.lean ====
section
/-! SUPPORT. One lemma per field per update of the state, true by unfolding, so that no later proof unfolds a
record update. -/

namespace Sys2Proof.Machine

/-! ## Writing a UUID register -/

@[simp] theorem Port.setU_fault (p : Port) (r : UReg) (v : Option UuidVal) : (p.setU r v).fault = p.fault := by
  cases r <;> rfl

@[simp] theorem Port.setU_queue (p : Port) (r : UReg) (v : Option UuidVal) : (p.setU r v).queue = p.queue := by
  cases r <;> rfl

@[simp] theorem Port.setU_responses (p : Port) (r : UReg) (v : Option UuidVal) :
    (p.setU r v).responses = p.responses := by
  cases r <;> rfl

@[simp] theorem Port.getU_setU_self (p : Port) (r : UReg) (v : Option UuidVal) : (p.setU r v).getU r = v := by
  cases r <;> rfl

theorem Port.getU_setU_of_ne (p : Port) {r r' : UReg} (v : Option UuidVal) (h : r' ≠ r) :
    (p.setU r v).getU r' = p.getU r' := by
  cases r <;> cases r' <;> first | rfl | exact absurd rfl h

/-! ## A response -/

@[simp] theorem Port.reply_getU (p : Port) (st : Byte) (pl : List Byte) (r : UReg) :
    (p.reply st pl).getU r = p.getU r := by
  cases r <;> rfl

@[simp] theorem Port.reply_fault (p : Port) (st : Byte) (pl : List Byte) : (p.reply st pl).fault = p.fault := rfl

@[simp] theorem Port.reply_queue (p : Port) (st : Byte) (pl : List Byte) : (p.reply st pl).queue = p.queue := rfl

@[simp] theorem Port.reply_responses (p : Port) (st : Byte) (pl : List Byte) :
    (p.reply st pl).responses = p.responses ++ [st :: pl] := rfl

/-! ## A fault -/

@[simp] theorem Port.takeFault_getU (p : Port) (f : CmdFault) (r : UReg) : (p.takeFault f).getU r = p.getU r := by
  cases r <;> rfl

@[simp] theorem Port.takeFault_fault (p : Port) (f : CmdFault) :
    (p.takeFault f).fault = stickyFault p.fault (statusOfFault f) := rfl

@[simp] theorem Port.takeFault_queue (p : Port) (f : CmdFault) : (p.takeFault f).queue = p.queue := rfl

@[simp] theorem Port.takeFault_responses (p : Port) (f : CmdFault) :
    (p.takeFault f).responses = p.responses ++ [[statusOfFault f]] := rfl

/-! ## Reset of a port -/

@[simp] theorem Port.atReset_getU (p : Port) (r : UReg) : p.atReset.getU r = none := by
  cases r <;> rfl

@[simp] theorem Port.atReset_fault (p : Port) : p.atReset.fault = 0x00 := rfl

@[simp] theorem Port.atReset_queue (p : Port) : p.atReset.queue = [] := rfl

@[simp] theorem Port.atReset_responses (p : Port) : p.atReset.responses = p.responses := rfl

/-! ## The issuing port -/

@[simp] theorem State.setIssuer_ports (s : State) (p : Port) : (s.setIssuer p).ports = s.ports.set s.cur p := rfl

@[simp] theorem State.setIssuer_v1 (s : State) (p : Port) : (s.setIssuer p).v1 = s.v1 := rfl

@[simp] theorem State.setIssuer_env (s : State) (p : Port) : (s.setIssuer p).env = s.env := rfl

@[simp] theorem State.setIssuer_cur (s : State) (p : Port) : (s.setIssuer p).cur = s.cur := rfl

@[simp] theorem State.setIssuer_resetReq (s : State) (p : Port) : (s.setIssuer p).resetReq = s.resetReq := rfl

/-- Two writes of the issuing port: the second stays. -/
@[simp] theorem State.setIssuer_setIssuer (s : State) (p q : Port) :
    (s.setIssuer p).setIssuer q = s.setIssuer q := by
  simp [State.setIssuer]

theorem State.cur_lt_of_issuer {s : State} {p : Port} (h : s.issuer = some p) : s.cur < s.ports.length :=
  (List.getElem?_eq_some_iff.mp h).1

theorem State.issuer_setIssuer {s : State} {p : Port} (h : s.issuer = some p) (q : Port) :
    (s.setIssuer q).issuer = some q := by
  simp [State.issuer, State.setIssuer, State.cur_lt_of_issuer h]

/-! ## Reset -/

@[simp] theorem State.takeReset_ports (s : State) : s.takeReset.ports = s.ports.map Port.atReset := rfl

@[simp] theorem State.takeReset_v1 (s : State) : s.takeReset.v1 = V1State.reset := rfl

@[simp] theorem State.takeReset_env (s : State) : s.takeReset.env = s.env := rfl

@[simp] theorem State.takeReset_cur (s : State) : s.takeReset.cur = s.cur := rfl

@[simp] theorem State.takeReset_resetReq (s : State) : s.takeReset.resetReq = false := rfl

end Sys2Proof.Machine
end

