-- ==== Sys2Proof/Laws/Ops.lean ====
section
/-! SUPPORT. What each shared operation can do, said once: the environment inputs, the issuing port, `respond`,
`raise`, the subject register. -/

namespace Sys2Proof.Machine

/-! ## Environment inputs -/

theorem Env.nextDraw_eq (e : Env) : e.nextDraw = e.drawAt 0 := by
  cases h : e.draws <;> simp [Env.nextDraw, Env.drawAt, h]

@[simp] theorem Env.draw_zero (e : Env) : e.draw 0 = (0, e) := rfl

theorem Env.draw_lt (k : Nat) (e : Env) : (e.draw k).1 < 2 ^ k := by
  unfold Env.draw
  split
  · simp [*]
  · exact Nat.mod_lt _ (by positivity)

/-- A draw of at least one bit: the low bits of the next sample. -/
theorem Env.draw_val {k : Nat} (hk : k ≠ 0) (e : Env) : (e.draw k).1 = (e.drawAt 0).toNat % 2 ^ k := by
  simp [Env.draw, hk, Env.nextDraw_eq]

theorem Env.draw_env {k : Nat} (hk : k ≠ 0) (e : Env) :
    (e.draw k).2 = { e with draws := e.draws.tail, drawn := e.drawn + 1 } := by
  simp [Env.draw, hk]

theorem Env.draw_tookDraws {k : Nat} (hk : k ≠ 0) (e : Env) : TookDraws 1 e (e.draw k).2 := by
  simp [TookDraws, Env.draw_env hk]

theorem Env.draw_sameClock (k : Nat) (e : Env) : SameClock e (e.draw k).2 := by
  unfold Env.draw
  split <;> simp [SameClock]

theorem SameClock.trans {e f g : Env} (h : SameClock e f) (h' : SameClock f g) : SameClock e g := by
  obtain ⟨a, b, c, d⟩ := h
  obtain ⟨a', b', c', d'⟩ := h'
  exact ⟨a'.trans a, b'.trans b, c'.trans c, d'.trans d⟩

theorem TookDraws.trans {m n : Nat} {e f g : Env} (h : TookDraws m e f) (h' : TookDraws n f g) :
    TookDraws (m + n) e g := by
  obtain ⟨a, b⟩ := h
  obtain ⟨a', b'⟩ := h'
  exact ⟨by rw [a', a, List.drop_drop], by omega⟩

/-- After `n` draws the next sample numbered `k` is the sample numbered `n + k` of before. -/
theorem TookDraws.drawAt {n : Nat} {e f : Env} (h : TookDraws n e f) (k : Nat) : f.drawAt k = e.drawAt (n + k) := by
  obtain ⟨a, b⟩ := h
  simp only [Env.drawAt, a, b, List.getD_eq_getElem?_getD, List.getElem?_drop]
  rw [Nat.add_assoc]

theorem TookDraws.zero (e : Env) : TookDraws 0 e e := ⟨by simp, rfl⟩

/-! ## Frames -/

theorem SameRegs.refl (p : Port) : SameRegs p p := fun _ => rfl

/-- A write of the issuing port's context changes no other port. -/
theorem onlyIssuer_setIssuer {s : State} {p : Port} (h : s.issuer = some p) (v : V1State) (e : Env) (q : Port) :
    OnlyIssuer s ({ s with v1 := v, env := e }.setIssuer q) q where
  issuer := by simp [State.setIssuer, State.cur_lt_of_issuer h]
  others n hn := by simp [State.setIssuer, List.getElem?_set_ne hn.symm]
  length := by simp [State.setIssuer]
  cur := rfl
  resetReq := rfl

theorem onlyIssuer_setIssuer_self {s : State} {p : Port} (h : s.issuer = some p) (q : Port) :
    OnlyIssuer s (s.setIssuer q) q :=
  onlyIssuer_setIssuer h s.v1 s.env q

theorem answered_reply (p : Port) (st : Byte) (pl : List Byte) : Answered p (p.reply st pl) (st :: pl) := ⟨rfl, rfl⟩

theorem answered_setU_reply (p : Port) (r : UReg) (v : Option UuidVal) (st : Byte) (pl : List Byte) :
    Answered p ((p.setU r v).reply st pl) (st :: pl) :=
  ⟨by simp, by simp⟩

theorem answered_takeFault (p : Port) (f : CmdFault) : Answered p (p.takeFault f) [statusOfFault f] := ⟨rfl, rfl⟩

theorem sameRegsBut_setU_reply (p : Port) (r : UReg) (v : Option UuidVal) (st : Byte) (pl : List Byte) :
    SameRegsBut r p ((p.setU r v).reply st pl) := fun r' h => by
  simp [Port.getU_setU_of_ne p v h]

theorem sameRegs_reply (p : Port) (st : Byte) (pl : List Byte) : SameRegs p (p.reply st pl) := fun r => by simp

theorem sameRegs_takeFault (p : Port) (f : CmdFault) : SameRegs p (p.takeFault f) := fun r => by simp

/-! ## Ending a command -/

theorem State.atIssuer_some {s : State} {p : Port} (h : s.issuer = some p) (k : Port → Result) :
    s.atIssuer k = k p := by
  simp [State.atIssuer, h]

theorem State.atIssuer_none {s : State} (h : s.issuer = none) (k : Port → Result) :
    s.atIssuer k = .fault .noSuchPort := by
  simp [State.atIssuer, h]

/-- Taking a fault: the issuing port's context after it, and nothing else. -/
theorem State.raise_eq {s : State} {p : Port} (h : s.issuer = some p) (f : CmdFault) :
    s.raise f = .next (s.setIssuer (p.takeFault f)) := by
  simp [State.raise, State.atIssuer_some h]

theorem State.raise_none {s : State} (h : s.issuer = none) (f : CmdFault) : s.raise f = .fault .noSuchPort := by
  simp [State.raise, State.atIssuer_none h]

theorem State.onSubject_present {s : State} {p : Port} {r : UReg} {u : UuidVal} (h : s.issuer = some p)
    (hu : p.getU r = some u) (k : Port → UuidVal → Result) : s.onSubject r k = k p u := by
  simp [State.onSubject, State.atIssuer_some h, hu]

theorem State.onSubject_absent {s : State} {p : Port} {r : UReg} (h : s.issuer = some p) (hu : p.getU r = none)
    (k : Port → UuidVal → Result) : s.onSubject r k = .next (s.setIssuer (p.takeFault (.absentOperand r))) := by
  simp [State.onSubject, State.atIssuer_some h, hu, State.raise_eq h]

theorem statusOfFault_range (f : CmdFault) : 0x81 ≤ (statusOfFault f).toNat ∧ (statusOfFault f).toNat ≤ 0x87 := by
  cases f <;> simp [statusOfFault]

theorem statusOfFault_msb (f : CmdFault) : (statusOfFault f).msb = true := by
  cases f <;> simp only [statusOfFault] <;> decide

end Sys2Proof.Machine
end

