-- ==== Sys2Proof/Laws/Codec.lean ====
section
/-! SUPPORT. The field codec: the digits of a number (40_field_codec.md R68, R69), the padded string (R70) as
exactly `n` digits most significant first (`fixedDigits`), the value a digit string denotes, and the random
integer (R66). -/

namespace Sys2Proof.Machine

/-! ## Digit characters -/

theorem digitChar_toNat {d : Nat} (h : d < 36) : (digitChar d).toNat = if d ≤ 9 then 0x30 + d else 0x61 + (d - 10) := by
  unfold digitChar
  split <;> simp only [BitVec.toNat_ofNat] <;> omega

theorem digitValue_digitChar {d : Nat} (h : d < 36) : digitValue (digitChar d) = d := by
  unfold digitValue
  rw [digitChar_toNat h]
  split <;> split <;> omega

theorem isDigitOf_digitChar {d radix : Nat} (h : d < radix) (hr : radix ≤ 36) : IsDigitOf radix (digitChar d) := by
  unfold IsDigitOf
  rw [digitChar_toNat (by omega)]
  split <;> omega

theorem digitValue_lt {radix : Nat} {c : Byte} (h : IsDigitOf radix c) : digitValue c < radix := by
  unfold IsDigitOf at h
  unfold digitValue
  split <;> omega

theorem digitChar_digitValue {radix : Nat} {c : Byte} (h : IsDigitOf radix c) (hr : radix ≤ 36) :
    digitChar (digitValue c) = c := by
  have hv := digitValue_lt h
  apply BitVec.eq_of_toNat_eq
  rw [digitChar_toNat (by omega)]
  unfold IsDigitOf at h
  unfold digitValue
  split <;> split <;> omega

/-! ## The value a string denotes -/

theorem foldl_denoted (radix : Nat) (t : Text) (a : Nat) :
    t.foldl (fun acc c => acc * radix + digitValue c) a = a * radix ^ t.length + denoted radix t := by
  induction t generalizing a with
  | nil => simp [denoted]
  | cons c t ih =>
    rw [List.foldl_cons, ih]
    have h2 : denoted radix (c :: t) = digitValue c * radix ^ t.length + denoted radix t := by
      rw [denoted, List.foldl_cons, ih]
      simp
    rw [h2, List.length_cons, pow_succ]
    ring

@[simp] theorem denoted_nil (radix : Nat) : denoted radix [] = 0 := rfl

theorem denoted_append (radix : Nat) (s t : Text) :
    denoted radix (s ++ t) = denoted radix s * radix ^ t.length + denoted radix t := by
  rw [denoted, List.foldl_append, foldl_denoted]
  rfl

theorem denoted_cons (radix : Nat) (c : Byte) (t : Text) :
    denoted radix (c :: t) = digitValue c * radix ^ t.length + denoted radix t := by
  have := denoted_append radix [c] t
  simpa [denoted] using this

theorem denoted_lt {radix : Nat} (t : Text) (h : ∀ c ∈ t, IsDigitOf radix c) :
    denoted radix t < radix ^ t.length := by
  induction t with
  | nil => simp
  | cons c t ih =>
    rw [denoted_cons, List.length_cons, pow_succ]
    have h1 := digitValue_lt (h c (by simp))
    have h2 := ih fun d hd => h d (by simp [hd])
    nlinarith [Nat.mul_le_mul_right (radix ^ t.length) (Nat.succ_le_of_lt h1)]

/-! ## Exactly `n` digits, most significant first -/

/-- The `n` low digits of `value`, most significant first. -/
def fixedDigits (radix : Nat) : Nat → Nat → Text
  | 0, _         => []
  | n + 1, value => fixedDigits radix n (value / radix) ++ [digitChar (value % radix)]

@[simp] theorem fixedDigits_length (radix n value : Nat) : (fixedDigits radix n value).length = n := by
  induction n generalizing value with
  | zero => rfl
  | succ n ih => simp [fixedDigits, ih]

theorem fixedDigits_isDigitOf {radix : Nat} (h : 2 ≤ radix) (hr : radix ≤ 36) (n value : Nat) :
    ∀ c ∈ fixedDigits radix n value, IsDigitOf radix c := by
  induction n generalizing value with
  | zero => simp [fixedDigits]
  | succ n ih =>
    intro c hc
    rcases List.mem_append.mp hc with hc | hc
    · exact ih _ c hc
    · rw [List.mem_singleton.mp hc]
      exact isDigitOf_digitChar (Nat.mod_lt _ (by omega)) hr

theorem denoted_fixedDigits {radix : Nat} (h : 2 ≤ radix) (hr : radix ≤ 36) (n value : Nat) :
    denoted radix (fixedDigits radix n value) = value % radix ^ n := by
  induction n generalizing value with
  | zero => simp [fixedDigits, Nat.mod_one]
  | succ n ih =>
    have hm := Nat.mod_lt value (show 0 < radix by omega)
    rw [fixedDigits, denoted_append, ih, denoted_cons, digitValue_digitChar (by omega)]
    simp only [List.length_singleton, pow_one, List.length_nil, pow_zero, mul_one, denoted_nil, add_zero]
    rw [pow_succ', Nat.mod_mul]
    ring

/-- Digits of a high part followed by digits of a low part. -/
theorem fixedDigits_append (radix m n value : Nat) :
    fixedDigits radix (m + n) value = fixedDigits radix m (value / radix ^ n) ++ fixedDigits radix n value := by
  induction n generalizing value with
  | zero => simp [fixedDigits]
  | succ n ih =>
    rw [← Nat.add_assoc, fixedDigits, ih, fixedDigits, Nat.div_div_eq_div_mul, ← pow_succ', List.append_assoc]

/-- Only the low `n` digits matter. -/
theorem fixedDigits_mod (radix n value : Nat) :
    fixedDigits radix n (value % radix ^ n) = fixedDigits radix n value := by
  induction n generalizing value with
  | zero => rfl
  | succ n ih =>
    have h1 : value % radix ^ (n + 1) / radix = value / radix % radix ^ n := by
      rw [pow_succ', Nat.mod_mul_right_div_self]
    have h2 : value % radix ^ (n + 1) % radix = value % radix := by
      rw [pow_succ', Nat.mod_mul_right_mod]
    rw [fixedDigits, fixedDigits, h1, h2, ih]

theorem fixedDigits_mul_add {radix m n a b : Nat} (h : 0 < radix) (hb : b < radix ^ n) :
    fixedDigits radix (m + n) (a * radix ^ n + b) = fixedDigits radix m a ++ fixedDigits radix n b := by
  have hp : 0 < radix ^ n := pow_pos h n
  rw [fixedDigits_append, ← fixedDigits_mod radix n (a * radix ^ n + b), Nat.add_comm, Nat.add_mul_mod_self_right,
    Nat.mod_eq_of_lt hb, Nat.add_mul_div_right _ _ hp, Nat.div_eq_of_lt hb, Nat.zero_add]

theorem fixedDigits_zero (radix n : Nat) :
    fixedDigits radix n 0 = List.replicate n 0x30 := by
  induction n with
  | zero => rfl
  | succ n ih =>
    rw [fixedDigits, Nat.zero_div, ih, Nat.zero_mod, List.replicate_succ']
    rfl

/-- A digit string is the fixed-width string of the value it denotes. -/
theorem fixedDigits_denoted {radix : Nat} (hr : radix ≤ 36) (t : Text) (h : ∀ c ∈ t, IsDigitOf radix c) :
    fixedDigits radix t.length (denoted radix t) = t := by
  induction t with
  | nil => rfl
  | cons c t ih =>
    have hc := h c (by simp)
    have hpos : 0 < radix := Nat.lt_of_le_of_lt (Nat.zero_le _) (digitValue_lt hc)
    have ht : ∀ d ∈ t, IsDigitOf radix d := fun d hd => h d (by simp [hd])
    rw [denoted_cons, List.length_cons, Nat.add_comm, fixedDigits_mul_add hpos (denoted_lt t ht), ih ht]
    simp [fixedDigits, Nat.mod_eq_of_lt (digitValue_lt hc), digitChar_digitValue hc hr]

/-! ## `Digits` -/

/-- Two bounds that are both large enough give the same digits. -/
theorem digitsWithin_congr {radix : Nat} (h : 2 ≤ radix) (m n value : Nat) (hm : value < 2 ^ m) (hn : value < 2 ^ n)
    (hm0 : m ≠ 0) (hn0 : n ≠ 0) : digitsWithin m value radix = digitsWithin n value radix := by
  induction m generalizing n value with
  | zero => exact absurd rfl hm0
  | succ m ih =>
    obtain ⟨n, rfl⟩ := Nat.exists_eq_succ_of_ne_zero hn0
    rw [Nat.succ_eq_add_one, digitsWithin, digitsWithin]
    split
    · rfl
    · have hd : value / radix ≤ value / 2 := Nat.div_le_div_left h (by omega)
      rw [pow_succ] at hm hn
      have h1 : 2 ≤ value := by omega
      have hm' : m ≠ 0 := by rintro rfl; simp at hm; omega
      have hn' : n ≠ 0 := by rintro rfl; simp at hn; omega
      rw [ih n (value / radix) (by omega) (by omega) hm' hn']

theorem digits_eq_within {radix n value : Nat} (h : 2 ≤ radix) (hn : value < 2 ^ n) (hn0 : n ≠ 0) :
    digits value radix = digitsWithin n value radix :=
  digitsWithin_congr h _ _ _ Nat.lt_log2_self hn (by omega) hn0

theorem digits_of_lt {radix value : Nat} (hv : value < radix) :
    digits value radix = [digitChar value] := by
  rw [digits, digitsWithin, if_pos hv]

theorem digits_of_ge {radix value : Nat} (h : 2 ≤ radix) (hv : radix ≤ value) :
    digits value radix = digits (value / radix) radix ++ [digitChar (value % radix)] := by
  have hl : value < 2 ^ (value.log2 + 1) := Nat.lt_log2_self
  have hd : value / radix ≤ value / 2 := Nat.div_le_div_left h (by omega)
  have h0 : value.log2 ≠ 0 := by
    intro h0
    rw [h0] at hl
    simp at hl
    omega
  rw [digits, digitsWithin, if_neg (by omega), digits_eq_within h (n := value.log2) (by rw [pow_succ] at hl; omega) h0]

/-- The digits of a value are its fixed-width digits at their own length, and that length is the least that
fits. -/
theorem digits_spec {radix : Nat} (h : 2 ≤ radix) (value : Nat) :
    digits value radix = fixedDigits radix (digits value radix).length value
    ∧ 1 ≤ (digits value radix).length
    ∧ ∀ n, 1 ≤ n → ((digits value radix).length ≤ n ↔ value < radix ^ n) := by
  induction value using Nat.strong_induction_on with
  | _ value ih =>
    by_cases hv : value < radix
    · rw [digits_of_lt hv]
      refine ⟨by simp [fixedDigits, Nat.mod_eq_of_lt hv], by simp, fun n hn => ?_⟩
      have : radix ^ 1 ≤ radix ^ n := Nat.pow_le_pow_right (by omega) hn
      rw [pow_one] at this
      simp only [List.length_singleton]
      constructor
      · intro; omega
      · intro; exact hn
    · have hlt : value / radix < value := Nat.div_lt_self (by omega) (by omega)
      obtain ⟨e, h1, hi⟩ := ih _ hlt
      rw [digits_of_ge h (by omega)]
      refine ⟨?_, by simp, fun n hn => ?_⟩
      · simp only [List.length_append, List.length_singleton, fixedDigits]
        rw [← e]
      · simp only [List.length_append, List.length_singleton]
        rcases Nat.lt_or_ge 1 n with h2 | h2
        · have := hi (n - 1) (by omega)
          have hp : radix ^ n = radix ^ (n - 1) * radix := by rw [← pow_succ]; congr; omega
          rw [hp, ← Nat.div_lt_iff_lt_mul (by omega), ← this]
          omega
        · have : n = 1 := by omega
          subst this
          simp only [pow_one]
          constructor <;> intro <;> omega

/-! ## `AlignNumber` -/

/-- Under its precondition `AlignNumber` is exactly `length` digits. -/
theorem alignNumber_eq_fixedDigits {radix value length : Nat} (h : 2 ≤ radix)
    (hl : (digits value radix).length ≤ length) : alignNumber value length radix = fixedDigits radix length value := by
  obtain ⟨e, h1, hi⟩ := digits_spec h value
  have hlt : value < radix ^ (digits value radix).length := (hi _ h1).mp le_rfl
  have hsplit : length = (length - (digits value radix).length) + (digits value radix).length := by omega
  rw [alignNumber]
  conv_rhs => rw [hsplit, fixedDigits_append, Nat.div_eq_of_lt hlt, fixedDigits_zero, ← e]

theorem alignNumber_of_lt {radix value length : Nat} (h : 2 ≤ radix) (hl : 1 ≤ length) (hv : value < radix ^ length) :
    alignNumber value length radix = fixedDigits radix length value :=
  alignNumber_eq_fixedDigits h (((digits_spec h value).2.2 length hl).mpr hv)

/-! ## `RandomBits` -/

theorem randomBits_of_le {width : Nat} (h : width ≤ 30) (e : Env) : randomBits width e = e.draw width := by
  rw [randomBits, if_pos (by simpa [drawMax] using h)]

theorem randomBits_of_gt {width : Nat} (h : 30 < width) (e : Env) :
    randomBits width e = ((e.draw 30).1 + ((e.draw 30).2.draw (width - 30)).1 * 2 ^ 30, ((e.draw 30).2.draw (width - 30)).2) := by
  rw [randomBits, if_neg (by simpa [drawMax] using h)]
  rfl

theorem randomBits_lt {width : Nat} (e : Env) : (randomBits width e).1 < 2 ^ width := by
  by_cases h : width ≤ 30
  · rw [randomBits_of_le h]
    exact Env.draw_lt width e
  · rw [randomBits_of_gt (by omega)]
    have h1 := Env.draw_lt 30 e
    have h2 := Env.draw_lt (width - 30) (e.draw 30).2
    have hp : 2 ^ width = 2 ^ (width - 30) * 2 ^ 30 := by rw [← pow_add]; congr; omega
    simp only
    rw [hp]
    nlinarith [Nat.mul_le_mul_right (2 ^ 30) (Nat.succ_le_of_lt h2)]

theorem randomBits_sameClock (width : Nat) (e : Env) : SameClock e (randomBits width e).2 := by
  by_cases h : width ≤ 30
  · rw [randomBits_of_le h]
    exact Env.draw_sameClock _ _
  · rw [randomBits_of_gt (by omega)]
    exact (Env.draw_sameClock _ _).trans (Env.draw_sameClock _ _)

/-- One draw: widths 1 to 30. -/
theorem randomBits_one {width : Nat} (h1 : 1 ≤ width) (h : width ≤ 30) (e : Env) :
    (randomBits width e).1 = (e.drawAt 0).toNat % 2 ^ width ∧ TookDraws 1 e (randomBits width e).2 := by
  rw [randomBits_of_le h]
  exact ⟨Env.draw_val (by omega) e, Env.draw_tookDraws (by omega) e⟩

/-- Two draws, the low 30 bits first: widths 31 to 53. -/
theorem randomBits_two {width : Nat} (h : 30 < width) (e : Env) :
    (randomBits width e).1 = (e.drawAt 0).toNat + ((e.drawAt 1).toNat % 2 ^ (width - 30)) * 2 ^ 30
    ∧ TookDraws 2 e (randomBits width e).2 := by
  rw [randomBits_of_gt h]
  have ht := Env.draw_tookDraws (k := 30) (by decide) e
  refine ⟨?_, ht.trans (Env.draw_tookDraws (by omega) _)⟩
  simp only
  rw [Env.draw_val (by decide), Env.draw_val (by omega), ht.drawAt 0, Nat.mod_eq_of_lt (e.drawAt 0).isLt]

end Sys2Proof.Machine
end

