-- ==== Sys2Proof/Laws/Decode.lean ====
section
/-! SUPPORT. The fields of a packet read back what the encoder writes, and the other way round: the opcode byte,
the selector and mask bytes, 64-bit integers and optional operands. -/

namespace Sys2Proof

/-! ## The opcode byte -/

@[simp] theorem opOfByte_opByte (op : Op) (ra rb : UReg) : opOfByte (opByte op ra rb) = some op := by
  cases op <;> cases ra <;> cases rb <;> decide

@[simp] theorem raOf_opByte (op : Op) (ra rb : UReg) : raOf (opByte op ra rb) = ra := by
  cases op <;> cases ra <;> cases rb <;> decide

@[simp] theorem rbOf_opByte (op : Op) (ra rb : UReg) : rbOf (opByte op ra rb) = rb := by
  cases op <;> cases ra <;> cases rb <;> decide

/-- Every byte with a legal opcode nibble is the opcode byte of its three fields. -/
theorem eq_opByte_of_opOfByte {b : Byte} {op : Op} (h : opOfByte b = some op) :
    b = opByte op (raOf b) (rbOf b) := by
  revert op h
  revert b
  decide

/-- The opcode nibble is legal exactly from 0x1 to 0xC. -/
theorem opOfByte_eq_none_iff (b : Byte) : opOfByte b = none ↔ b.toNat / 16 = 0 ∨ 13 ≤ b.toNat / 16 := by
  revert b
  decide

/-! ## The second byte -/

@[simp] theorem fieldOfSelector_rdfSelector (f : FieldIx) (r : Rep) : fieldOfSelector (rdfSelector f r) = some f := by
  cases f <;> cases r <;> decide

@[simp] theorem repOfSelector_rdfSelector (f : FieldIx) (r : Rep) : repOfSelector (rdfSelector f r) = some r := by
  cases f <;> cases r <;> decide

theorem rdfSelector_reserved_clear (f : FieldIx) (r : Rep) : rdfSelector f r &&& 0xE0 = 0 := by
  cases f <;> cases r <;> decide

/-- Every selector byte without a reserved value is the selector of its two fields. -/
theorem eq_rdfSelector {b : Byte} {f : FieldIx} {r : Rep} (h0 : b &&& 0xE0 = 0) (hf : fieldOfSelector b = some f)
    (hr : repOfSelector b = some r) : b = rdfSelector f r := by
  cases f <;> cases r <;> revert h0 hf hr <;> revert b <;> decide

/-- The mask byte made of six presence bits. -/
def maskOfBits (b0 b1 b2 b3 b4 b5 : Bool) : Byte :=
  0#2 ++ BitVec.ofBool b5 ++ BitVec.ofBool b4 ++ BitVec.ofBool b3 ++ BitVec.ofBool b2 ++ BitVec.ofBool b1
    ++ BitVec.ofBool b0

theorem initMask_eq (a : InitArgs) :
    initMask a = maskOfBits a.timeLow.isSome a.timeMid.isSome a.timeHiAndVersion.isSome
      a.clockSeqHiAndReserved.isSome a.clockSeqLow.isSome a.node.isSome := rfl

theorem maskOfBits_getLsbD (b0 b1 b2 b3 b4 b5 : Bool) :
    (maskOfBits b0 b1 b2 b3 b4 b5).getLsbD 0 = b0 ∧ (maskOfBits b0 b1 b2 b3 b4 b5).getLsbD 1 = b1
    ∧ (maskOfBits b0 b1 b2 b3 b4 b5).getLsbD 2 = b2 ∧ (maskOfBits b0 b1 b2 b3 b4 b5).getLsbD 3 = b3
    ∧ (maskOfBits b0 b1 b2 b3 b4 b5).getLsbD 4 = b4 ∧ (maskOfBits b0 b1 b2 b3 b4 b5).getLsbD 5 = b5
    ∧ maskOfBits b0 b1 b2 b3 b4 b5 &&& 0xC0 = 0 := by
  revert b0 b1 b2 b3 b4 b5
  decide

theorem n1_maskOfBits (b0 b1 b2 b3 b4 b5 : Bool) :
    n1 (maskOfBits b0 b1 b2 b3 b4 b5)
      = b0.toNat + b1.toNat + b2.toNat + b3.toNat + b4.toNat + b5.toNat := by
  revert b0 b1 b2 b3 b4 b5
  decide

theorem eq_maskOfBits {m : Byte} (h : m &&& 0xC0 = 0) :
    m = maskOfBits (m.getLsbD 0) (m.getLsbD 1) (m.getLsbD 2) (m.getLsbD 3) (m.getLsbD 4) (m.getLsbD 5) := by
  revert h
  revert m
  decide

/-! ## 64-bit integers -/

@[simp] theorem be64Bytes_length (v : Word64) : (be64Bytes v).length = 8 := rfl

/-- `BE64` as one sum over eight bytes. -/
theorem be64_toNat (b0 b1 b2 b3 b4 b5 b6 b7 : Byte) (rest : List Byte) :
    (be64 (b0 :: b1 :: b2 :: b3 :: b4 :: b5 :: b6 :: b7 :: rest)).toNat
      = b0.toNat * 2 ^ 56 + b1.toNat * 2 ^ 48 + b2.toNat * 2 ^ 40 + b3.toNat * 2 ^ 32 + b4.toNat * 2 ^ 24
        + b5.toNat * 2 ^ 16 + b6.toNat * 2 ^ 8 + b7.toNat := by
  simp only [be64, List.take, List.foldl, BitVec.toNat_ofNat]
  omega

@[simp] theorem be64_be64Bytes_append (v : Word64) (rest : List Byte) : be64 (be64Bytes v ++ rest) = v := by
  apply BitVec.eq_of_toNat_eq
  simp only [be64Bytes, List.cons_append, List.nil_append, be64_toNat, BitVec.extractLsb'_toNat,
    Nat.shiftRight_eq_div_pow]
  omega

@[simp] theorem be64_be64Bytes (v : Word64) : be64 (be64Bytes v) = v := by
  simpa using be64_be64Bytes_append v []

theorem be64Bytes_be64 (b0 b1 b2 b3 b4 b5 b6 b7 : Byte) (rest : List Byte) :
    be64Bytes (be64 (b0 :: b1 :: b2 :: b3 :: b4 :: b5 :: b6 :: b7 :: rest)) = [b0, b1, b2, b3, b4, b5, b6, b7] := by
  simp only [be64Bytes, List.cons.injEq, and_true]
  refine ⟨?_, ?_, ?_, ?_, ?_, ?_, ?_, ?_⟩ <;> apply BitVec.eq_of_toNat_eq <;>
    simp only [BitVec.extractLsb'_toNat, Nat.shiftRight_eq_div_pow, be64_toNat] <;> omega

/-- Eight bytes or more: the integer's bytes are the first eight. -/
theorem be64Bytes_be64_take {bs : List Byte} (h : 8 ≤ bs.length) : be64Bytes (be64 bs) = bs.take 8 := by
  obtain ⟨b0, b1, b2, b3, b4, b5, b6, b7, rest, rfl⟩ :
      ∃ b0 b1 b2 b3 b4 b5 b6 b7 rest, bs = b0 :: b1 :: b2 :: b3 :: b4 :: b5 :: b6 :: b7 :: rest := by
    match bs, h with
    | b0 :: b1 :: b2 :: b3 :: b4 :: b5 :: b6 :: b7 :: rest, _ => exact ⟨b0, b1, b2, b3, b4, b5, b6, b7, rest, rfl⟩
  rw [be64Bytes_be64]
  rfl

/-! ## Optional operands -/

theorem operandBytes_length (a : Option Word64) : (operandBytes a).length = 8 * a.isSome.toNat := by
  cases a <;> rfl

/-- An operand's bytes read back as the operand, leaving what follows them. -/
@[simp] theorem takeOperand_operandBytes (a : Option Word64) (rest : List Byte) :
    takeOperand a.isSome (operandBytes a ++ rest) = (a, rest) := by
  cases a with
  | none => rfl
  | some v => simp [takeOperand, operandBytes, be64Bytes]; exact be64_be64Bytes_append v rest

/-- Reading an operand and writing it again gives the bytes that were read. -/
theorem operandBytes_takeOperand {present : Bool} {bs : List Byte} (h : 8 * present.toNat ≤ bs.length) :
    operandBytes (takeOperand present bs).1 ++ (takeOperand present bs).2 = bs
    ∧ (takeOperand present bs).1.isSome = present
    ∧ (takeOperand present bs).2.length = bs.length - 8 * present.toNat := by
  cases present with
  | false => simp [takeOperand, operandBytes]
  | true =>
    have h8 : 8 ≤ bs.length := by simpa using h
    simp [takeOperand, operandBytes, be64Bytes_be64_take h8]

/-! ## Must-be-zero and reserved values -/

/-- No must-be-zero bit is 1 and no reserved value is used. -/
theorem reservedByte_eq_none_iff (op : Op) (b0 b1 : Byte) :
    reservedByte op b0 b1 = none ↔
      b0 &&& mustBeZero op = 0 ∧ (op = .init → b1 &&& 0xC0 = 0)
      ∧ (op = .rdf → b1 &&& 0xE0 = 0 ∧ fieldOfSelector b1 ≠ none ∧ repOfSelector b1 ≠ none) := by
  by_cases h0 : b0 &&& mustBeZero op = 0
  · rw [reservedByte.eq_def, if_neg (not_not.mpr h0)]
    cases op <;> simp_all
  · rw [reservedByte.eq_def, if_pos h0]
    exact ⟨fun h => (nomatch h), fun h => absurd h.1 h0⟩

/-- A reserved byte is one of the first two. -/
theorem reservedByte_eq_some {op : Op} {b0 b1 b : Byte} (h : reservedByte op b0 b1 = some b) : b = b0 ∨ b = b1 := by
  by_cases h0 : b0 &&& mustBeZero op = 0
  · rw [reservedByte.eq_def, if_neg (not_not.mpr h0)] at h
    cases op <;> simp_all
  · rw [reservedByte.eq_def, if_pos h0] at h
    exact .inl (Option.some.inj h).symm

/-! ## The four outcomes of the decoder on a packet that is not empty -/

theorem decode_illegalOpcode {b0 : Byte} (h : opOfByte b0 = none) (rest : List Byte) :
    decode (b0 :: rest) = .error (.illegalOpcode b0) := by
  simp only [decode, h]

theorem decode_badLength {b0 : Byte} {rest : List Byte} {op : Op} (h : opOfByte b0 = some op)
    (hl : requiredLength op rest.head? ≠ some (rest.length + 1)) :
    decode (b0 :: rest) = .error (.badLength (rest.length + 1)) := by
  simp only [decode, h]
  rw [if_neg hl]

theorem decode_reservedField {b0 b : Byte} {rest : List Byte} {op : Op} (h : opOfByte b0 = some op)
    (hl : requiredLength op rest.head? = some (rest.length + 1)) (hr : reservedByte op b0 (rest.headD 0) = some b) :
    decode (b0 :: rest) = .error (.reservedField b) := by
  simp only [decode, h]
  rw [if_pos hl, hr]

theorem decode_ok {b0 : Byte} {rest : List Byte} {op : Op} (h : opOfByte b0 = some op)
    (hl : requiredLength op rest.head? = some (rest.length + 1)) (hr : reservedByte op b0 (rest.headD 0) = none) :
    decode (b0 :: rest) = .ok (assemble op (b0 :: rest)) := by
  simp only [decode, h]
  rw [if_pos hl, hr]

/-- A packet that decodes passed the three checks. -/
theorem decode_ok_inv {b0 : Byte} {rest : List Byte} {i : Instr} (h : decode (b0 :: rest) = .ok i) :
    ∃ op, opOfByte b0 = some op ∧ requiredLength op rest.head? = some (rest.length + 1) ∧
      reservedByte op b0 (rest.headD 0) = none ∧ i = assemble op (b0 :: rest) := by
  cases ho : opOfByte b0 with
  | none => rw [decode_illegalOpcode ho] at h; cases h
  | some op =>
    by_cases hl : requiredLength op rest.head? = some (rest.length + 1)
    · cases hr : reservedByte op b0 (rest.headD 0) with
      | some b => rw [decode_reservedField ho hl hr] at h; cases h
      | none =>
        rw [decode_ok ho hl hr] at h
        cases h
        exact ⟨op, rfl, hl, hr, rfl⟩
    · rw [decode_badLength ho hl] at h; cases h

/-! ## All six operands of `INIT` -/

/-- The operands written by the encoder read back as the operands. -/
theorem initArgsOf_operandBytes (a : InitArgs) :
    initArgsOf (initMask a) (operandBytes a.timeLow ++ (operandBytes a.timeMid ++ (operandBytes a.timeHiAndVersion
        ++ (operandBytes a.clockSeqHiAndReserved ++ (operandBytes a.clockSeqLow ++ operandBytes a.node))))) = a := by
  obtain ⟨m0, m1, m2, m3, m4, m5, -⟩ :=
    maskOfBits_getLsbD a.timeLow.isSome a.timeMid.isSome a.timeHiAndVersion.isSome
      a.clockSeqHiAndReserved.isSome a.clockSeqLow.isSome a.node.isSome
  have h := takeOperand_operandBytes a.node []
  rw [List.append_nil] at h
  simp only [initArgsOf, initMask_eq, m0, m1, m2, m3, m4, m5, takeOperand_operandBytes, h]

/-- Operands read from a body of the length the mask requires: their mask and their bytes are the mask and the
body. -/
theorem operandBytes_initArgsOf {m : Byte} (hm : m &&& 0xC0 = 0) {body : List Byte} (hl : body.length = 8 * n1 m) :
    initMask (initArgsOf m body) = m ∧
    operandBytes (initArgsOf m body).timeLow ++ (operandBytes (initArgsOf m body).timeMid
      ++ (operandBytes (initArgsOf m body).timeHiAndVersion
      ++ (operandBytes (initArgsOf m body).clockSeqHiAndReserved
      ++ (operandBytes (initArgsOf m body).clockSeqLow ++ operandBytes (initArgsOf m body).node)))) = body := by
  have hm' := eq_maskOfBits hm
  rw [hm', n1_maskOfBits] at hl
  set r0 := takeOperand (m.getLsbD 0) body with h0
  obtain ⟨a0, b0, c0⟩ := operandBytes_takeOperand (present := m.getLsbD 0) (bs := body) (by omega)
  rw [← h0] at a0 b0 c0
  set r1 := takeOperand (m.getLsbD 1) r0.2 with h1
  obtain ⟨a1, b1, c1⟩ := operandBytes_takeOperand (present := m.getLsbD 1) (bs := r0.2) (by omega)
  rw [← h1] at a1 b1 c1
  set r2 := takeOperand (m.getLsbD 2) r1.2 with h2
  obtain ⟨a2, b2, c2⟩ := operandBytes_takeOperand (present := m.getLsbD 2) (bs := r1.2) (by omega)
  rw [← h2] at a2 b2 c2
  set r3 := takeOperand (m.getLsbD 3) r2.2 with h3
  obtain ⟨a3, b3, c3⟩ := operandBytes_takeOperand (present := m.getLsbD 3) (bs := r2.2) (by omega)
  rw [← h3] at a3 b3 c3
  set r4 := takeOperand (m.getLsbD 4) r3.2 with h4
  obtain ⟨a4, b4, c4⟩ := operandBytes_takeOperand (present := m.getLsbD 4) (bs := r3.2) (by omega)
  rw [← h4] at a4 b4 c4
  set r5 := takeOperand (m.getLsbD 5) r4.2 with h5
  obtain ⟨a5, b5, c5⟩ := operandBytes_takeOperand (present := m.getLsbD 5) (bs := r4.2) (by omega)
  rw [← h5] at a5 b5 c5
  have e : initArgsOf m body = ⟨r0.1, r1.1, r2.1, r3.1, r4.1, r5.1⟩ := rfl
  have n5 : r5.2 = [] := List.eq_nil_of_length_eq_zero (by omega)
  rw [n5, List.append_nil] at a5
  constructor
  · rw [e, initMask_eq]
    simp only [b0, b1, b2, b3, b4, b5]
    exact hm'.symm
  · rw [e]
    simp only [a5, a4, a3, a2, a1, a0]

end Sys2Proof
end

