-- ==== Sys2Proof/Laws/Value.lean ====
section
/-! SUPPORT. The UUID value type (41_value_type.md): construction, the strings as fixed-width digits, the 128-bit
integer, equality. -/

namespace Sys2Proof.Machine

/-! ## Construction (R80) -/

@[simp] theorem construct_timeLow (a0 a1 a2 a3 a4 a5 : Nat) :
    (construct a0 a1 a2 a3 a4 a5).timeLow.toNat = a0 % 2 ^ 32 := BitVec.toNat_ofNat ..

@[simp] theorem construct_timeMid (a0 a1 a2 a3 a4 a5 : Nat) :
    (construct a0 a1 a2 a3 a4 a5).timeMid.toNat = a1 % 2 ^ 16 := BitVec.toNat_ofNat ..

@[simp] theorem construct_timeHiAndVersion (a0 a1 a2 a3 a4 a5 : Nat) :
    (construct a0 a1 a2 a3 a4 a5).timeHiAndVersion.toNat = a2 % 2 ^ 16 := BitVec.toNat_ofNat ..

@[simp] theorem construct_clockSeqHiAndReserved (a0 a1 a2 a3 a4 a5 : Nat) :
    (construct a0 a1 a2 a3 a4 a5).clockSeqHiAndReserved.toNat = a3 % 2 ^ 8 := BitVec.toNat_ofNat ..

@[simp] theorem construct_clockSeqLow (a0 a1 a2 a3 a4 a5 : Nat) :
    (construct a0 a1 a2 a3 a4 a5).clockSeqLow.toNat = a4 % 2 ^ 8 := BitVec.toNat_ofNat ..

@[simp] theorem construct_node (a0 a1 a2 a3 a4 a5 : Nat) :
    (construct a0 a1 a2 a3 a4 a5).node.toNat = a5 % 2 ^ 48 := BitVec.toNat_ofNat ..

/-- Every field is within its width. -/
theorem fieldInt_lt (u : UuidVal) (i : FieldIx) : fieldInt u i < 2 ^ fieldWidth i := by
  cases i <;> exact BitVec.isLt _

/-- A value is determined by its six integers. -/
theorem uuid_ext {u v : UuidVal} (h : ∀ i, fieldInt u i = fieldInt v i) : u = v := by
  have h0 := BitVec.eq_of_toNat_eq (h .timeLow)
  have h1 := BitVec.eq_of_toNat_eq (h .timeMid)
  have h2 := BitVec.eq_of_toNat_eq (h .timeHiAndVersion)
  have h3 := BitVec.eq_of_toNat_eq (h .clockSeqHiAndReserved)
  have h4 := BitVec.eq_of_toNat_eq (h .clockSeqLow)
  have h5 := BitVec.eq_of_toNat_eq (h .node)
  cases u
  cases v
  simp_all

/-- Constructing a value of its own six integers. -/
theorem construct_self (u : UuidVal) :
    construct u.timeLow.toNat u.timeMid.toNat u.timeHiAndVersion.toNat u.clockSeqHiAndReserved.toNat
      u.clockSeqLow.toNat u.node.toNat = u := by
  cases u
  simp [construct]

/-! ## Equality (R86) -/

theorem equals_iff (u v : UuidVal) : equals u v = true ↔ u = v := by
  cases u
  cases v
  simp [equals, and_assoc]

/-- The payload byte of `EQ`: 0x01 exactly for the same value in the second register (R89). -/
theorem eqByte_eq (u : UuidVal) (b : Option UuidVal) : eqByte u b = if b = some u then 0x01 else 0x00 := by
  cases b with
  | none => rfl
  | some v =>
    simp only [eqByte, equals_iff, Option.some.injEq]
    by_cases h : u = v <;> simp [h, eq_comm]

/-! ## The strings as fixed-width digits (R82 to R84) -/

theorem fieldBin_eq (u : UuidVal) (i : FieldIx) : fieldBin u i = fixedDigits 2 (fieldWidth i) (fieldInt u i) :=
  alignNumber_of_lt (by decide) (by cases i <;> decide) (fieldInt_lt u i)

theorem fieldHex_eq (u : UuidVal) (i : FieldIx) : fieldHex u i = fixedDigits 16 (fieldWidth i / 4) (fieldInt u i) := by
  refine alignNumber_of_lt (by decide) (by cases i <;> decide) ?_
  have h := fieldInt_lt u i
  cases i <;> exact h

@[simp] theorem fieldBin_length (u : UuidVal) (i : FieldIx) : (fieldBin u i).length = fieldWidth i := by
  rw [fieldBin_eq, fixedDigits_length]

@[simp] theorem fieldHex_length (u : UuidVal) (i : FieldIx) : (fieldHex u i).length = fieldWidth i / 4 := by
  rw [fieldHex_eq, fixedDigits_length]

theorem isLowerHex_iff (c : Byte) : IsLowerHex c ↔ IsDigitOf 16 c := by
  unfold IsLowerHex IsDigitOf
  omega

theorem fieldHex_isLowerHex (u : UuidVal) (i : FieldIx) : ∀ c ∈ fieldHex u i, IsLowerHex c := fun c hc => by
  rw [fieldHex_eq] at hc
  exact (isLowerHex_iff c).mpr (fixedDigits_isDigitOf (by decide) (by decide) _ _ c hc)

theorem bitString_length (u : UuidVal) : (bitString u).length = 128 := by
  simp [bitString, fieldWidth]

theorem hexString_length (u : UuidVal) : (hexString u).length = 36 := by
  simp [hexString, fieldWidth]

/-! ## The 128-bit integer (R85) -/

theorem pack128_lt (u : UuidVal) : pack128 u < 2 ^ 128 := by
  have := u.timeLow.isLt
  have := u.timeMid.isLt
  have := u.timeHiAndVersion.isLt
  have := u.clockSeqHiAndReserved.isLt
  have := u.clockSeqLow.isLt
  have := u.node.isLt
  unfold pack128
  omega

/-- `Pack128` one field at a time, each after the ones before it. -/
theorem pack128_nested (u : UuidVal) :
    pack128 u = ((((u.timeLow.toNat * 2 ^ 16 + u.timeMid.toNat) * 2 ^ 16 + u.timeHiAndVersion.toNat) * 2 ^ 8
      + u.clockSeqHiAndReserved.toNat) * 2 ^ 8 + u.clockSeqLow.toNat) * 2 ^ 48 + u.node.toNat := by
  unfold pack128
  omega

theorem bitString_eq (u : UuidVal) : bitString u = fixedDigits 2 128 (pack128 u) := by
  rw [pack128_nested]
  rw [show (128 : Nat) = ((((32 + 16) + 16) + 8) + 8) + 48 from rfl]
  rw [fixedDigits_mul_add (by decide) u.node.isLt, fixedDigits_mul_add (by decide) u.clockSeqLow.isLt,
    fixedDigits_mul_add (by decide) u.clockSeqHiAndReserved.isLt,
    fixedDigits_mul_add (by decide) u.timeHiAndVersion.isLt, fixedDigits_mul_add (by decide) u.timeMid.isLt]
  simp only [bitString, fieldBin_eq, fieldWidth, fieldInt]

/-- The six hexadecimal groups without hyphens are the 32 digits of the 128-bit integer. -/
theorem hexDigits_eq (u : UuidVal) :
    fieldHex u .timeLow ++ fieldHex u .timeMid ++ fieldHex u .timeHiAndVersion ++ fieldHex u .clockSeqHiAndReserved
      ++ fieldHex u .clockSeqLow ++ fieldHex u .node = fixedDigits 16 32 (pack128 u) := by
  have e : pack128 u = ((((u.timeLow.toNat * 16 ^ 4 + u.timeMid.toNat) * 16 ^ 4 + u.timeHiAndVersion.toNat) * 16 ^ 2
      + u.clockSeqHiAndReserved.toNat) * 16 ^ 2 + u.clockSeqLow.toNat) * 16 ^ 12 + u.node.toNat := by
    unfold pack128
    omega
  have app (a b m n : Nat) (hb : b < 16 ^ n) :
      fixedDigits 16 (m + n) (a * 16 ^ n + b) = fixedDigits 16 m a ++ fixedDigits 16 n b :=
    fixedDigits_mul_add (by decide) hb
  rw [e, app _ _ 20 12 u.node.isLt, app _ _ 18 2 u.clockSeqLow.isLt, app _ _ 16 2 u.clockSeqHiAndReserved.isLt,
    app _ _ 12 4 u.timeHiAndVersion.isLt, app _ _ 8 4 u.timeMid.isLt]
  simp only [fieldHex_eq, fieldWidth, fieldInt]

/-- The slices of a 128-bit integer (R85). -/
theorem unpack128_fields (x : Nat) :
    (unpack128 x).timeLow.toNat = x / 2 ^ 96 % 2 ^ 32 ∧ (unpack128 x).timeMid.toNat = x / 2 ^ 80 % 2 ^ 16
    ∧ (unpack128 x).timeHiAndVersion.toNat = x / 2 ^ 64 % 2 ^ 16
    ∧ (unpack128 x).clockSeqHiAndReserved.toNat = x / 2 ^ 56 % 2 ^ 8
    ∧ (unpack128 x).clockSeqLow.toNat = x / 2 ^ 48 % 2 ^ 8 ∧ (unpack128 x).node.toNat = x % 2 ^ 48 := by
  refine ⟨?_, ?_, ?_, ?_, ?_, ?_⟩ <;>
    simp only [unpack128, construct, BitVec.toNat_ofNat, Nat.shiftRight_eq_div_pow]

/-- The slices of `Pack128(u)` are the six fields. -/
theorem pack128_slices (u : UuidVal) :
    pack128 u / 2 ^ 96 % 2 ^ 32 = u.timeLow.toNat ∧ pack128 u / 2 ^ 80 % 2 ^ 16 = u.timeMid.toNat
    ∧ pack128 u / 2 ^ 64 % 2 ^ 16 = u.timeHiAndVersion.toNat
    ∧ pack128 u / 2 ^ 56 % 2 ^ 8 = u.clockSeqHiAndReserved.toNat
    ∧ pack128 u / 2 ^ 48 % 2 ^ 8 = u.clockSeqLow.toNat ∧ pack128 u % 2 ^ 48 = u.node.toNat := by
  have key (x0 x1 x2 x3 x4 x5 x : Nat) (h0 : x0 < 2 ^ 32) (h1 : x1 < 2 ^ 16) (h2 : x2 < 2 ^ 16) (h3 : x3 < 2 ^ 8)
      (h4 : x4 < 2 ^ 8) (h5 : x5 < 2 ^ 48)
      (h : x = x0 * 2 ^ 96 + x1 * 2 ^ 80 + x2 * 2 ^ 64 + x3 * 2 ^ 56 + x4 * 2 ^ 48 + x5) :
      x / 2 ^ 96 % 2 ^ 32 = x0 ∧ x / 2 ^ 80 % 2 ^ 16 = x1 ∧ x / 2 ^ 64 % 2 ^ 16 = x2 ∧ x / 2 ^ 56 % 2 ^ 8 = x3
      ∧ x / 2 ^ 48 % 2 ^ 8 = x4 ∧ x % 2 ^ 48 = x5 := by
    refine ⟨?_, ?_, ?_, ?_, ?_, ?_⟩ <;> omega
  exact key _ _ _ _ _ _ _ u.timeLow.isLt u.timeMid.isLt u.timeHiAndVersion.isLt u.clockSeqHiAndReserved.isLt
    u.clockSeqLow.isLt u.node.isLt rfl

/-- The digit of a number in base 2 at place `k` from the left. -/
theorem getD_fixedDigits_two {n k : Nat} (v : Nat) (hk : k < n) :
    (fixedDigits 2 n v).getD k 0 = if v.testBit (n - 1 - k) then 0x31 else 0x30 := by
  induction n generalizing v with
  | zero => omega
  | succ n ih =>
    rw [fixedDigits, List.getD_eq_getElem?_getD]
    by_cases h : k < n
    · rw [List.getElem?_append_left (by simpa using h), ← List.getD_eq_getElem?_getD, ih _ h, Nat.testBit_div_two,
        show n - 1 - k + 1 = n + 1 - 1 - k by omega]
    · obtain rfl : k = n := by omega
      rw [List.getElem?_append_right (by simp)]
      rcases Nat.mod_two_eq_zero_or_one v with e | e <;> simp [Nat.testBit_zero, e, digitChar]

end Sys2Proof.Machine
end

