-- ==== Sys2Proof/Laws/Parser.lean ====
section
/-! SUPPORT. The canonical-text parser (44_parser.md): a text matches exactly when it is six groups of hex digits
with four hyphens between them, and what the groups denote. -/

namespace Sys2Proof.Machine

/-! ## Hex digits of either case -/

theorem isHexDigit_iff (c : Byte) : isHexDigit c = true ↔ IsLowerHex c ∨ IsUpperHex c := by
  simp [isHexDigit, IsLowerHex, IsUpperHex, or_assoc]

theorem isDigitOf_lowerHex {c : Byte} (h : isHexDigit c = true) : IsDigitOf 16 (lowerHex c) := by
  rw [← isLowerHex_iff]
  unfold IsLowerHex
  revert h
  revert c
  decide

theorem hexVal_eq {c : Byte} (h : isHexDigit c = true) : hexVal c = digitValue (lowerHex c) := by
  revert h
  revert c
  decide

theorem lowerHex_of_isDigitOf {c : Byte} (h : IsDigitOf 16 c) : lowerHex c = c := by
  unfold lowerHex
  unfold IsDigitOf at h
  rw [if_neg (by omega)]

theorem isHexDigit_of_isDigitOf {c : Byte} (h : IsDigitOf 16 c) : isHexDigit c = true :=
  (isHexDigit_iff c).mpr (.inl ((isLowerHex_iff c).mpr h))

/-- A character of the canonical pattern is left alone by lower-casing exactly when it is no upper-case hex
letter. -/
theorem lowerHex_eq_self_iff (c : Byte) : lowerHex c = c ↔ ¬ IsUpperHex c := by
  unfold IsUpperHex
  revert c
  decide

/-- A group of hex digits denotes the number of its lower-case form. -/
theorem hexInt_eq {t : Text} (h : ∀ c ∈ t, isHexDigit c = true) : hexInt t = denoted 16 (t.map lowerHex) := by
  have e (a : Nat) : t.foldl (fun acc c => acc * 16 + hexVal c) a
      = (t.map lowerHex).foldl (fun acc c => acc * 16 + digitValue c) a := by
    induction t generalizing a with
    | nil => rfl
    | cons c t ih =>
      rw [List.foldl_cons, List.map_cons, List.foldl_cons, ih fun d hd => h d (by simp [hd]), hexVal_eq (h c (by simp))]
  exact e 0

theorem map_lowerHex_isDigitOf {t : Text} (h : ∀ c ∈ t, isHexDigit c = true) :
    ∀ c ∈ t.map lowerHex, IsDigitOf 16 c := by
  intro c hc
  obtain ⟨d, hd, rfl⟩ := List.mem_map.mp hc
  exact isDigitOf_lowerHex (h d hd)

theorem hexInt_lt {t : Text} (h : ∀ c ∈ t, isHexDigit c = true) : hexInt t < 16 ^ t.length := by
  rw [hexInt_eq h]
  simpa using denoted_lt _ (map_lowerHex_isDigitOf h)

/-- The fixed-width digits of a group's number are the group in lower case. -/
theorem fixedDigits_hexInt {t : Text} (h : ∀ c ∈ t, isHexDigit c = true) {n : Nat} (hn : t.length = n) :
    fixedDigits 16 n (hexInt t) = t.map lowerHex := by
  rw [hexInt_eq h, ← hn]
  simpa using fixedDigits_denoted (by decide) _ (map_lowerHex_isDigitOf h)

/-- The number of fixed-width digits. -/
theorem hexInt_fixedDigits (n v : Nat) : hexInt (fixedDigits 16 n v) = v % 16 ^ n := by
  have hd := fixedDigits_isDigitOf (radix := 16) (by decide) (by decide) n v
  rw [hexInt_eq fun c hc => isHexDigit_of_isDigitOf (hd c hc),
    List.map_congr_left fun c hc => lowerHex_of_isDigitOf (hd c hc), List.map_id',
    denoted_fixedDigits (by decide) (by decide)]

/-! ## The six groups -/

/-- The text of six groups with the hyphens of the canonical pattern. -/
def joinGroups (g0 g1 g2 g3 g4 g5 : Text) : Text :=
  g0 ++ hyphen :: (g1 ++ hyphen :: (g2 ++ hyphen :: (g3 ++ (g4 ++ hyphen :: g5))))

/-- Six groups of 8, 4, 4, 2, 2 and 12 hex digits. -/
structure GroupsOk (g0 g1 g2 g3 g4 g5 : Text) : Prop where
  l0 : g0.length = 8
  l1 : g1.length = 4
  l2 : g2.length = 4
  l3 : g3.length = 2
  l4 : g4.length = 2
  l5 : g5.length = 12
  h0 : ∀ c ∈ g0, isHexDigit c = true
  h1 : ∀ c ∈ g1, isHexDigit c = true
  h2 : ∀ c ∈ g2, isHexDigit c = true
  h3 : ∀ c ∈ g3, isHexDigit c = true
  h4 : ∀ c ∈ g4, isHexDigit c = true
  h5 : ∀ c ∈ g5, isHexDigit c = true

theorem matchesPattern_iff (s : Text) :
    matchesPattern s = true ↔ s.length = 36 ∧
      ∀ k, k < 36 → if isHyphenPos k then s.getD k 0 = hyphen else isHexDigit (s.getD k 0) = true := by
  simp only [matchesPattern, Bool.and_eq_true, beq_iff_eq, List.all_eq_true, List.mem_range]
  refine and_congr_right fun _ => forall_congr' fun k => imp_congr_right fun _ => ?_
  split <;> simp

theorem getD_append_lt (a b : Text) {k : Nat} (h : k < a.length) : (a ++ b).getD k 0 = a.getD k 0 := by
  simp [List.getD_eq_getElem?_getD, List.getElem?_append_left h]

theorem getD_append_ge (a b : Text) {k : Nat} (h : a.length ≤ k) : (a ++ b).getD k 0 = b.getD (k - a.length) 0 := by
  simp [List.getD_eq_getElem?_getD, List.getElem?_append_right h]

theorem getD_mem {a : Text} {k : Nat} (h : k < a.length) : a.getD k 0 ∈ a := by
  simp [List.getD_eq_getElem?_getD, List.getElem?_eq_getElem h]

theorem joinGroups_length {g0 g1 g2 g3 g4 g5 : Text} (h : GroupsOk g0 g1 g2 g3 g4 g5) :
    (joinGroups g0 g1 g2 g3 g4 g5).length = 36 := by
  simp [joinGroups, h.l0, h.l1, h.l2, h.l3, h.l4, h.l5]

/-- Where each group stands in the text. -/
theorem substr_joinGroups {g0 g1 g2 g3 g4 g5 : Text} (h : GroupsOk g0 g1 g2 g3 g4 g5) :
    substr (joinGroups g0 g1 g2 g3 g4 g5) 0 7 = g0 ∧ substr (joinGroups g0 g1 g2 g3 g4 g5) 9 12 = g1
    ∧ substr (joinGroups g0 g1 g2 g3 g4 g5) 14 17 = g2 ∧ substr (joinGroups g0 g1 g2 g3 g4 g5) 19 20 = g3
    ∧ substr (joinGroups g0 g1 g2 g3 g4 g5) 21 22 = g4 ∧ substr (joinGroups g0 g1 g2 g3 g4 g5) 24 35 = g5 := by
  have t (i n : Nat) (a b c : Text) (ha : a.length = i) (hb : b.length = n) : ((a ++ (b ++ c)).drop i).take n = b := by
    rw [List.drop_left' ha, List.take_left' hb]
  obtain ⟨l0, l1, l2, l3, l4, l5, -⟩ := h
  refine ⟨t 0 8 [] g0 _ rfl l0, ?_, ?_, ?_, ?_, ?_⟩
  · convert t 9 4 (g0 ++ [hyphen]) g1 (hyphen :: (g2 ++ hyphen :: (g3 ++ (g4 ++ hyphen :: g5)))) (by simp [l0]) l1
      using 2
    simp [joinGroups, substr]
  · convert t 14 4 (g0 ++ hyphen :: (g1 ++ [hyphen])) g2 (hyphen :: (g3 ++ (g4 ++ hyphen :: g5)))
      (by simp [l0, l1]) l2 using 2
    simp [joinGroups, substr]
  · convert t 19 2 (g0 ++ hyphen :: (g1 ++ hyphen :: (g2 ++ [hyphen]))) g3 (g4 ++ hyphen :: g5)
      (by simp [l0, l1, l2]) l3 using 2
    simp [joinGroups, substr]
  · convert t 21 2 (g0 ++ hyphen :: (g1 ++ hyphen :: (g2 ++ hyphen :: g3))) g4 (hyphen :: g5)
      (by simp [l0, l1, l2, l3]) l4 using 2
    simp [joinGroups, substr]
  · convert t 24 12 (g0 ++ hyphen :: (g1 ++ hyphen :: (g2 ++ hyphen :: (g3 ++ (g4 ++ [hyphen]))))) g5 []
      (by simp [l0, l1, l2, l3, l4]) l5 using 2
    simp [joinGroups, substr]

/-- Six groups with their hyphens match the pattern. -/
theorem matchesPattern_joinGroups {g0 g1 g2 g3 g4 g5 : Text} (h : GroupsOk g0 g1 g2 g3 g4 g5) :
    matchesPattern (joinGroups g0 g1 g2 g3 g4 g5) = true := by
  refine (matchesPattern_iff _).mpr ⟨joinGroups_length h, fun k hk => ?_⟩
  obtain ⟨l0, l1, l2, l3, l4, l5, h0, h1, h2, h3, h4, h5⟩ := h
  have hy (a b : Text) (k n : Nat) (ha : a.length = n) (hk : k = n) : (a ++ hyphen :: b).getD k 0 = hyphen := by
    subst hk ha
    simp
  have nx (a b : Text) (k n : Nat) (ha : a.length = n) (hk : n < k) :
      (a ++ hyphen :: b).getD k 0 = b.getD (k - (n + 1)) 0 := by
    rw [getD_append_ge _ _ (by omega), ha, show k - n = (k - (n + 1)) + 1 by omega, List.getD_cons_succ]
  simp only [joinGroups, isHyphenPos, Bool.or_eq_true, beq_iff_eq]
  rcases Nat.lt_trichotomy k 8 with c0 | c0 | c0
  · rw [if_neg (by omega), getD_append_lt _ _ (by omega)]
    exact h0 _ (getD_mem (by omega))
  · rw [if_pos (by omega)]
    exact hy _ _ _ _ l0 c0
  rw [nx _ _ _ _ l0 c0]
  rcases Nat.lt_trichotomy k 13 with c1 | c1 | c1
  · rw [if_neg (by omega), getD_append_lt _ _ (by omega)]
    exact h1 _ (getD_mem (by omega))
  · rw [if_pos (by omega)]
    exact hy _ _ _ _ l1 (by omega)
  rw [nx _ _ _ _ l1 (by omega)]
  rcases Nat.lt_trichotomy k 18 with c2 | c2 | c2
  · rw [if_neg (by omega), getD_append_lt _ _ (by omega)]
    exact h2 _ (getD_mem (by omega))
  · rw [if_pos (by omega)]
    exact hy _ _ _ _ l2 (by omega)
  rw [nx _ _ _ _ l2 (by omega)]
  rcases Nat.lt_or_ge k 21 with c3 | c3
  · rw [if_neg (by omega), getD_append_lt _ _ (by omega)]
    exact h3 _ (getD_mem (by omega))
  rw [getD_append_ge _ _ (by omega), l3]
  rcases Nat.lt_trichotomy k 23 with c4 | c4 | c4
  · rw [if_neg (by omega), getD_append_lt _ _ (by omega)]
    exact h4 _ (getD_mem (by omega))
  · rw [if_pos (by omega)]
    exact hy _ _ _ _ l4 (by omega)
  · rw [nx _ _ _ _ l4 (by omega), if_neg (by omega)]
    exact h5 _ (getD_mem (by omega))

/-- Every text that matches is six groups with their hyphens. -/
theorem groups_of_matchesPattern {s : Text} (h : matchesPattern s = true) :
    ∃ g0 g1 g2 g3 g4 g5, GroupsOk g0 g1 g2 g3 g4 g5 ∧ s = joinGroups g0 g1 g2 g3 g4 g5 := by
  obtain ⟨hl, hk⟩ := (matchesPattern_iff s).mp h
  have hex (i n : Nat) (hi : i + n ≤ 36) (hn : ∀ k, k < n → isHyphenPos (i + k) = false) :
      ∀ c ∈ (s.drop i).take n, isHexDigit c = true := by
    intro c hc
    obtain ⟨k, hkn, rfl⟩ := List.getElem_of_mem hc
    simp only [List.length_take, List.length_drop, hl] at hkn
    have := hk (i + k) (by omega)
    rw [hn k (by omega), List.getD_eq_getElem _ _ (by omega)] at this
    simpa using this
  have split (i n : Nat) (hi : i + n < 36) (hy : isHyphenPos (i + n) = true) :
      s.drop i = (s.drop i).take n ++ hyphen :: s.drop (i + n + 1) := by
    have := hk (i + n) (by omega)
    rw [hy, if_pos rfl, List.getD_eq_getElem _ _ (by omega)] at this
    conv_lhs => rw [← List.take_append_drop n (s.drop i), List.drop_drop,
      List.drop_eq_getElem_cons (i := i + n) (by omega), this]
  have len (i n : Nat) (hi : i + n ≤ 36) : ((s.drop i).take n).length = n := by
    simp only [List.length_take, List.length_drop, hl]
    omega
  refine ⟨(s.drop 0).take 8, (s.drop 9).take 4, (s.drop 14).take 4, (s.drop 19).take 2, (s.drop 21).take 2,
    (s.drop 24).take 12, ⟨len _ _ (by decide), len _ _ (by decide), len _ _ (by decide), len _ _ (by decide),
      len _ _ (by decide), len _ _ (by decide), hex _ _ (by decide) (by decide), hex _ _ (by decide) (by decide),
      hex _ _ (by decide) (by decide), hex _ _ (by decide) (by decide), hex _ _ (by decide) (by decide),
      hex _ _ (by decide) (by decide)⟩, ?_⟩
  have e5 : (s.drop 24).take 12 = s.drop 24 := List.take_of_length_le (by simp [hl])
  have e3 : s.drop 19 = (s.drop 19).take 2 ++ s.drop 21 := by
    conv_lhs => rw [← List.take_append_drop 2 (s.drop 19), List.drop_drop]
  rw [joinGroups, e5, ← split 21 2 (by decide) rfl, ← e3, ← split 14 4 (by decide) rfl, ← split 9 4 (by decide) rfl,
    ← split 0 8 (by decide) rfl, List.drop_zero]

/-! ## `ParseText` -/

/-- What the parser makes of six groups. -/
theorem parseText_joinGroups {g0 g1 g2 g3 g4 g5 : Text} (h : GroupsOk g0 g1 g2 g3 g4 g5) :
    parseText (joinGroups g0 g1 g2 g3 g4 g5)
      = some (construct (hexInt g0) (hexInt g1) (hexInt g2) (hexInt g3) (hexInt g4) (hexInt g5)) := by
  obtain ⟨e0, e1, e2, e3, e4, e5⟩ := substr_joinGroups h
  rw [parseText, if_pos (matchesPattern_joinGroups h), e0, e1, e2, e3, e4, e5]

theorem hexString_eq_joinGroups (u : UuidVal) :
    hexString u = joinGroups (fieldHex u .timeLow) (fieldHex u .timeMid) (fieldHex u .timeHiAndVersion)
      (fieldHex u .clockSeqHiAndReserved) (fieldHex u .clockSeqLow) (fieldHex u .node) := by
  simp [hexString, joinGroups]

theorem groupsOk_fieldHex (u : UuidVal) :
    GroupsOk (fieldHex u .timeLow) (fieldHex u .timeMid) (fieldHex u .timeHiAndVersion)
      (fieldHex u .clockSeqHiAndReserved) (fieldHex u .clockSeqLow) (fieldHex u .node) := by
  have h (i : FieldIx) : ∀ c ∈ fieldHex u i, isHexDigit c = true := fun c hc =>
    (isHexDigit_iff c).mpr (.inl (fieldHex_isLowerHex u i c hc))
  constructor <;> first | exact h _ | simp [fieldWidth]

theorem hexInt_fieldHex (u : UuidVal) (i : FieldIx) : hexInt (fieldHex u i) = fieldInt u i := by
  rw [fieldHex_eq, hexInt_fixedDigits]
  have := fieldInt_lt u i
  refine Nat.mod_eq_of_lt ?_
  cases i <;> exact this

/-- Parsing the canonical string of a value gives the value (R124). -/
theorem parseText_hexString (u : UuidVal) : parseText (hexString u) = some u := by
  rw [hexString_eq_joinGroups, parseText_joinGroups (groupsOk_fieldHex u)]
  simp only [hexInt_fieldHex, fieldInt, construct_self]

theorem parseText_isSome (s : Text) : (parseText s).isSome = matchesPattern s := by
  unfold parseText
  split <;> simp [*]

/-- The canonical string of a parsed text is the text in lower case (R124). -/
theorem hexString_of_parseText {s : Text} {u : UuidVal} (h : parseText s = some u) :
    hexString u = s.map lowerHex := by
  have hm : matchesPattern s = true := by rw [← parseText_isSome, h]; rfl
  obtain ⟨g0, g1, g2, g3, g4, g5, hg, rfl⟩ := groups_of_matchesPattern hm
  rw [parseText_joinGroups hg, Option.some.injEq] at h
  subst h
  have lt (g : Text) (n w : Nat) (hc : ∀ c ∈ g, isHexDigit c = true) (hl : g.length = n) (hw : 16 ^ n = 2 ^ w) :
      hexInt g % 2 ^ w = hexInt g := Nat.mod_eq_of_lt (by rw [← hw, ← hl]; exact hexInt_lt hc)
  rw [hexString_eq_joinGroups]
  simp only [fieldHex_eq, fieldInt, fieldWidth, construct_timeLow, construct_timeMid, construct_timeHiAndVersion,
    construct_clockSeqHiAndReserved, construct_clockSeqLow, construct_node]
  rw [lt g0 8 32 hg.h0 hg.l0 (by norm_num), lt g1 4 16 hg.h1 hg.l1 (by norm_num), lt g2 4 16 hg.h2 hg.l2 (by norm_num),
    lt g3 2 8 hg.h3 hg.l3 (by norm_num), lt g4 2 8 hg.h4 hg.l4 (by norm_num), lt g5 12 48 hg.h5 hg.l5 (by norm_num),
    fixedDigits_hexInt hg.h0 hg.l0, fixedDigits_hexInt hg.h1 hg.l1, fixedDigits_hexInt hg.h2 hg.l2,
    fixedDigits_hexInt hg.h3 hg.l3, fixedDigits_hexInt hg.h4 hg.l4, fixedDigits_hexInt hg.h5 hg.l5]
  have hy : lowerHex hyphen = hyphen := by decide
  simp [joinGroups, hy]

end Sys2Proof.Machine
end

