-- ==== Sys2Proof/Laws/GenV.lean ====
section
/-! SUPPORT. The two generators (42_gen_v4.md, 43_gen_v1.md): what a chain of random integers takes, the tags as
sums, the creation of the version-1 state, the four cases of the clock arbiter, the fields of a version-1 value. -/

namespace Sys2Proof.Machine

/-! ## Chains of random integers -/

/-- A random integer of 1 to 30 bits after `n` draws. -/
theorem randomBits_one_after {n width : Nat} {e f : Env} (h : TookDraws n e f) (h1 : 1 ≤ width) (h30 : width ≤ 30) :
    (randomBits width f).1 = (e.drawAt n).toNat % 2 ^ width ∧ TookDraws (n + 1) e (randomBits width f).2 := by
  obtain ⟨a, b⟩ := randomBits_one h1 h30 f
  exact ⟨by rw [a, h.drawAt 0, Nat.add_zero], h.trans b⟩

/-- A random integer of 31 to 53 bits after `n` draws. -/
theorem randomBits_two_after {n width : Nat} {e f : Env} (h : TookDraws n e f) (h30 : 30 < width) :
    (randomBits width f).1 = (e.drawAt n).toNat + ((e.drawAt (n + 1)).toNat % 2 ^ (width - 30)) * 2 ^ 30
    ∧ TookDraws (n + 2) e (randomBits width f).2 := by
  obtain ⟨a, b⟩ := randomBits_two h30 f
  exact ⟨by rw [a, h.drawAt 0, h.drawAt 1, Nat.add_zero], h.trans b⟩

theorem genV4_sameClock (e : Env) : SameClock e (genV4 e).2 := by
  rw [genV4]
  exact (((((randomBits_sameClock _ _).trans (randomBits_sameClock _ _)).trans (randomBits_sameClock _ _)).trans
    (randomBits_sameClock _ _)).trans (randomBits_sameClock _ _)).trans (randomBits_sameClock _ _)

/-! ## Tags -/

/-- OR-ing a tag above the value's bits adds it. -/
theorem or_tag {v k : Nat} (t : Nat) (h : v < 2 ^ k) : v ||| 2 ^ k * t = v + 2 ^ k * t := by
  rw [Nat.add_comm, Nat.two_pow_add_eq_or_of_lt h, Nat.lor_comm]

theorem or_version4Tag {v : Nat} (h : v < 2 ^ 12) : v ||| version4Tag = v + 0x4000 := or_tag 4 h

theorem or_version1Tag {v : Nat} (h : v < 2 ^ 12) : v ||| version1Tag = v + 0x1000 := or_tag 1 h

theorem or_variantTag {v : Nat} (h : v < 2 ^ 6) : v ||| variantTag = v + 0x80 := or_tag 2 h

/-- The version nibble of a third field that is a 12-bit value plus a tag. -/
theorem version_of_tagged {u : UuidVal} {v k : Nat} (h : u.timeHiAndVersion.toNat = v + k * 0x1000) (hv : v < 2 ^ 12) :
    version u = BitVec.ofNat 4 k := by
  apply BitVec.eq_of_toNat_eq
  simp only [version, BitVec.extractLsb'_toNat, Nat.shiftRight_eq_div_pow, h, BitVec.toNat_ofNat]
  omega

/-- The variant bits of a fourth field that is a 6-bit value plus the tag. -/
theorem variant_of_tagged {b : Byte} {v : Nat} (h : b.toNat = v + 0x80) (hv : v < 2 ^ 6) :
    b.extractLsb' 6 2 = 0b10 := by
  apply BitVec.eq_of_toNat_eq
  have e : (0b10 : BitVec 2).toNat = 2 := rfl
  simp only [BitVec.extractLsb'_toNat, Nat.shiftRight_eq_div_pow, h, e]
  omega

/-! ## The clock sequence (R109) -/

theorem clockSeqHi_eq (seq : BitVec 14) : clockSeqHi seq = seq.toNat / 256 + 0x80 := by
  have h : seq.toNat / 2 ^ 8 % 2 ^ 6 = seq.toNat / 256 := Nat.mod_eq_of_lt (by have := seq.isLt; omega)
  rw [clockSeqHi, BitVec.extractLsb'_toNat, Nat.shiftRight_eq_div_pow, h,
    or_variantTag (by have := seq.isLt; omega)]

theorem clockSeqLo_eq (seq : BitVec 14) : clockSeqLo seq = seq.toNat % 256 := by
  rw [clockSeqLo, BitVec.extractLsb'_toNat, Nat.shiftRight_eq_div_pow, pow_zero, Nat.div_one]

theorem and_low6 (v : Nat) : v &&& 0x3F = v % 2 ^ 6 := Nat.and_two_pow_sub_one_eq_mod v 6

/-! ## Creating the version-1 state (R105, R106) -/

theorem v1Ready_inited {v : V1State} (h : v.inited = true) (e : Env) : v1Ready v e = (v, e) := by
  rw [v1Ready, if_pos h]

theorem v1Ready_not_inited {v : V1State} (h : v.inited = false) (e : Env) : v1Ready v e = v1Init e := by
  rw [v1Ready, if_neg (by simp [h])]

@[simp] theorem v1Init_inited (e : Env) : (v1Init e).1.inited = true := by simp only [v1Init]

@[simp] theorem v1Init_timestamp (e : Env) : (v1Init e).1.timestamp = 0 := by simp only [v1Init]

@[simp] theorem v1Init_tick (e : Env) : (v1Init e).1.tick = 0 := by simp only [v1Init]

theorem v1Init_env (e : Env) : (v1Init e).2 = (randomBits 48 (randomBits 14 e).2).2 := by
  rw [v1Init]

/-- The three draws of `V1Init`, and the sequence and node made of them. -/
theorem v1Init_spec (e : Env) :
    TookDraws 3 e (v1Init e).2 ∧ SameClock e (v1Init e).2
    ∧ (v1Init e).1.sequence.toNat = (e.drawAt 0).toNat % 2 ^ 14
    ∧ (v1Init e).1.node
        = BitVec.ofNat 48 ((e.drawAt 1).toNat + ((e.drawAt 2).toNat % 2 ^ 18) * 2 ^ 30) ||| 1 := by
  obtain ⟨a, b⟩ := randomBits_one_after (TookDraws.zero e) (width := 14) (by decide) (by decide)
  obtain ⟨c, d⟩ := randomBits_two_after b (width := 48) (by decide)
  have hn : BitVec.ofNat 48 nodeForced = 1 := rfl
  have hs := (randomBits_sameClock 14 e).trans (randomBits_sameClock 48 (randomBits 14 e).2)
  rw [v1Init_env]
  refine ⟨d, hs, ?_, ?_⟩
  · rw [v1Init, BitVec.toNat_ofNat, a, Nat.mod_mod]
  · rw [v1Init, BitVec.ofNat_or, hn, c]

theorem getLsbD_zero_or_one (x : BitVec 48) : (x ||| 1).getLsbD 0 = true := by
  simp

theorem v1Ready_sameClock (v : V1State) (e : Env) : SameClock e (v1Ready v e).2 := by
  cases h : v.inited with
  | true => rw [v1Ready_inited h]; exact ⟨rfl, rfl, rfl, rfl⟩
  | false => rw [v1Ready_not_inited h]; exact (v1Init_spec e).2.1

@[simp] theorem v1Ready_fst_inited (v : V1State) (e : Env) : (v1Ready v e).1.inited = true := by
  cases h : v.inited with
  | true => rw [v1Ready_inited h]; exact h
  | false => rw [v1Ready_not_inited h]; rfl

/-- The draws taken to have the version-1 state ready: three where it is created, none where it exists. -/
theorem v1Ready_draws (v : V1State) (e : Env) :
    TookDraws (if v.inited = true then 0 else 3) e (v1Ready v e).2 := by
  cases h : v.inited with
  | true => rw [v1Ready_inited h]; exact TookDraws.zero e
  | false => rw [v1Ready_not_inited h]; exact (v1Init_spec e).1

/-- The stored time with which the clock arbiter starts. -/
theorem v1Ready_timestamp (v : V1State) (e : Env) :
    (v1Ready v e).1.timestamp = if v.inited = true then v.timestamp else 0 := by
  cases h : v.inited with
  | true => rw [v1Ready_inited h, if_pos rfl]
  | false => rw [v1Ready_not_inited h, v1Init_timestamp, if_neg (by simp)]

/-! ## The clock arbiter (R108) -/

/-- ADVANCE. -/
theorem clockArbiter_advance {now : BitVec 48} {v : V1State} (h : v.timestamp.toNat < now.toNat) (e : Env) :
    clockArbiter now v e = ({ v with timestamp := now, tick := 0 }, e) := by
  have h1 : now ≠ v.timestamp := by rintro rfl; omega
  have h2 : ¬ now < v.timestamp := by rw [BitVec.lt_def]; omega
  rw [clockArbiter, if_neg h1, if_neg h2]

/-- REGRESS. -/
theorem clockArbiter_regress {now : BitVec 48} {v : V1State} (h : now.toNat < v.timestamp.toNat) (e : Env) :
    clockArbiter now v e = ({ v with timestamp := now, tick := 0, sequence := v.sequence + 1 }, e) := by
  have h1 : now ≠ v.timestamp := by rintro rfl; omega
  have h2 : now < v.timestamp := by rw [BitVec.lt_def]; omega
  rw [clockArbiter, if_neg h1, if_pos h2]

/-- TICK. -/
theorem clockArbiter_tick {v : V1State} {e : Env} (h : (e.drawAt 0).toNat % 8 = 0) (ht : v.tick.toNat < 9999) :
    clockArbiter v.timestamp v e = ({ v with tick := v.tick + 1 }, (e.draw 3).2) := by
  have hc : (e.draw coinBits).1 = 0 := by rw [Env.draw_val (by decide)]; exact h
  rw [clockArbiter, if_pos rfl]
  simp only
  rw [if_pos ⟨hc, ht⟩]
  rfl

/-- SEQ. -/
theorem clockArbiter_seq {v : V1State} {e : Env} (h : (e.drawAt 0).toNat % 8 ≠ 0 ∨ 9999 ≤ v.tick.toNat) :
    clockArbiter v.timestamp v e = ({ v with sequence := v.sequence + 1 }, (e.draw 3).2) := by
  have hc : ¬ ((e.draw coinBits).1 = 0 ∧ v.tick.toNat < tickMax) := by
    rintro ⟨a, b⟩
    rw [Env.draw_val (by decide)] at a
    have a' : (e.drawAt 0).toNat % 8 = 0 := a
    have b' : v.tick.toNat < 9999 := b
    omega
  rw [clockArbiter, if_pos rfl]
  simp only
  rw [if_neg hc]
  rfl

/-- The four cases are all the cases. -/
theorem clockArbiter_cases (now : BitVec 48) (v : V1State) (e : Env) :
    (v.timestamp.toNat < now.toNat) ∨ (now.toNat < v.timestamp.toNat)
    ∨ (now = v.timestamp ∧ (e.drawAt 0).toNat % 8 = 0 ∧ v.tick.toNat < 9999)
    ∨ (now = v.timestamp ∧ ((e.drawAt 0).toNat % 8 ≠ 0 ∨ 9999 ≤ v.tick.toNat)) := by
  by_cases h : now.toNat = v.timestamp.toNat
  · have := BitVec.eq_of_toNat_eq h
    by_cases h1 : (e.drawAt 0).toNat % 8 = 0 <;> by_cases h2 : v.tick.toNat < 9999 <;> simp_all
  · omega

/-- What every case leaves: the state exists, its time is the sample, the node is the node of before, `tick` stays
in its range, and no clock sample and no arbiter choice is taken. -/
theorem clockArbiter_spec (now : BitVec 48) (v : V1State) (e : Env) :
    (clockArbiter now v e).1.inited = v.inited ∧ (clockArbiter now v e).1.timestamp = now
    ∧ (clockArbiter now v e).1.node = v.node ∧ SameClock e (clockArbiter now v e).2
    ∧ (v.tick.toNat ≤ 9999 → (clockArbiter now v e).1.tick.toNat ≤ 9999) := by
  rcases clockArbiter_cases now v e with h | h | ⟨rfl, h, ht⟩ | ⟨rfl, h⟩
  · rw [clockArbiter_advance h]; exact ⟨rfl, rfl, rfl, ⟨rfl, rfl, rfl, rfl⟩, fun _ => Nat.zero_le _⟩
  · rw [clockArbiter_regress h]; exact ⟨rfl, rfl, rfl, ⟨rfl, rfl, rfl, rfl⟩, fun _ => Nat.zero_le _⟩
  · rw [clockArbiter_tick h ht]
    refine ⟨rfl, rfl, rfl, Env.draw_sameClock _ _, fun _ => ?_⟩
    simp only [BitVec.toNat_add]
    have : (1 : BitVec 14).toNat = 1 := rfl
    omega
  · rw [clockArbiter_seq h]
    exact ⟨rfl, rfl, rfl, Env.draw_sameClock _ _, id⟩

/-- The draws of the clock arbiter: the coin where the clock has not changed, none where it has. -/
theorem clockArbiter_draws (now : BitVec 48) (v : V1State) (e : Env) :
    TookDraws (if now = v.timestamp then 1 else 0) e (clockArbiter now v e).2 := by
  by_cases h : now = v.timestamp
  · rw [clockArbiter, if_pos h, if_pos h]
    exact Env.draw_tookDraws (by decide) e
  · rw [clockArbiter, if_neg h, if_neg h]
    exact TookDraws.zero e

theorem seq_succ (seq : BitVec 14) : (seq + 1).toNat = (seq.toNat + 1) % 2 ^ 14 := by
  simp [BitVec.toNat_add]

/-! ## `GENV1` up to the updated state -/

theorem genV1State_eq (v : V1State) (e : Env) :
    genV1State v e = clockArbiter (e.clocks.headD (Config.freeNow e.sampled)) (v1Ready v e).1
      { (v1Ready v e).2 with clocks := e.clocks.tail, sampled := e.sampled + 1 } := by
  obtain ⟨a, b, -, -⟩ := v1Ready_sameClock v e
  simp only [genV1State, Env.now, a, b]

/-- What `GENV1` leaves of the state and the inputs, whatever the case. -/
theorem genV1State_spec (v : V1State) (e : Env) :
    (genV1State v e).1.inited = true
    ∧ (genV1State v e).1.timestamp = e.clocks.headD (Config.freeNow e.sampled)
    ∧ (genV1State v e).1.node = (v1Ready v e).1.node
    ∧ (genV1State v e).2.clocks = e.clocks.drop 1 ∧ (genV1State v e).2.sampled = e.sampled + 1
    ∧ (genV1State v e).2.picks = e.picks ∧ (genV1State v e).2.picked = e.picked
    ∧ ((v1Ready v e).1.tick.toNat ≤ 9999 → (genV1State v e).1.tick.toNat ≤ 9999) := by
  rw [genV1State_eq]
  obtain ⟨a, b, c, ⟨d0, d1, d2, d3⟩, f⟩ := clockArbiter_spec (e.clocks.headD (Config.freeNow e.sampled)) (v1Ready v e).1
    { (v1Ready v e).2 with clocks := e.clocks.tail, sampled := e.sampled + 1 }
  obtain ⟨-, -, g, h⟩ := v1Ready_sameClock v e
  exact ⟨by rw [a, v1Ready_fst_inited], b, c, by rw [d0, List.drop_one], d1, by rw [d2, g], by rw [d3, h], f⟩

/-- The draws of `GENV1`: those that create the state, then those of the clock arbiter. -/
theorem genV1State_draws (v : V1State) (e : Env) :
    TookDraws ((if v.inited = true then 0 else 3)
        + (if e.clocks.headD (Config.freeNow e.sampled) = (if v.inited = true then v.timestamp else 0) then 1 else 0))
      e (genV1State v e).2 := by
  rw [genV1State_eq, ← v1Ready_timestamp v e]
  have h : TookDraws (if v.inited = true then 0 else 3) e
      { (v1Ready v e).2 with clocks := e.clocks.tail, sampled := e.sampled + 1 } := v1Ready_draws v e
  exact h.trans (clockArbiter_draws _ _ _)

/-! ## The fields of a version-1 value (R107, R110) -/

theorem timeFieldHigh_lt (ms : Nat) : timeFieldHigh ms < 2 ^ 12 := Nat.mod_lt _ (by decide)

theorem v1Uuid_fields (v : V1State) :
    (v1Uuid v).timeLow.toNat = (timeFieldLow v.timestamp.toNat + v.tick.toNat) % 2 ^ 32
    ∧ (v1Uuid v).timeMid.toNat = timeFieldMid v.timestamp.toNat
    ∧ (v1Uuid v).timeHiAndVersion.toNat = timeFieldHigh v.timestamp.toNat + 0x1000
    ∧ (v1Uuid v).clockSeqHiAndReserved.toNat = v.sequence.toNat / 256 + 0x80
    ∧ (v1Uuid v).clockSeqLow.toNat = v.sequence.toNat % 256 ∧ (v1Uuid v).node = v.node := by
  have h := timeFieldHigh_lt v.timestamp.toNat
  have hs := v.sequence.isLt
  refine ⟨?_, ?_, ?_, ?_, ?_, ?_⟩
  · rw [v1Uuid, construct_timeLow, Nat.mod_mod]
  · rw [v1Uuid, construct_timeMid, timeFieldMid, Nat.mod_mod]
  · rw [v1Uuid, construct_timeHiAndVersion, or_version1Tag h, Nat.mod_eq_of_lt (by omega)]
  · rw [v1Uuid, construct_clockSeqHiAndReserved, clockSeqHi_eq, Nat.mod_eq_of_lt (by omega)]
  · rw [v1Uuid, construct_clockSeqLow, clockSeqLo_eq, Nat.mod_eq_of_lt (by omega)]
  · apply BitVec.eq_of_toNat_eq
    rw [v1Uuid, construct_node, Nat.mod_eq_of_lt v.node.isLt]

/-- The clock sequence read back from the two fields of a value (R112). -/
theorem v1Uuid_sequence (v : V1State) :
    ((v1Uuid v).clockSeqHiAndReserved.toNat &&& 0x3F) * 256 + (v1Uuid v).clockSeqLow.toNat = v.sequence.toNat := by
  obtain ⟨-, -, -, h, l, -⟩ := v1Uuid_fields v
  have := v.sequence.isLt
  rw [and_low6, h, l]
  omega

end Sys2Proof.Machine
end

