-- ==== Sys2Proof/Laws/Exec.lean ====
section
/-! SUPPORT. What each command does, one equation each, and once for all commands: the two shapes of a command's
next state (it answers a fault, or it answers a response), with everything the rest may depend on. -/

namespace Sys2Proof.Machine

variable {s : State} {p : Port}

/-! ## One equation per command -/

theorem exec_init (h : s.issuer = some p) (d : UReg) (a : InitArgs) :
    exec (.init d a) s = .next (s.setIssuer ((p.setU d (some (initValue a))).reply 0x00 [])) := by
  simp only [exec, execInit, State.atIssuer_some h]
  rfl

theorem exec_genv4 (h : s.issuer = some p) (d : UReg) :
    exec (.genv4 d) s = .next ({ s with env := (genV4 s.env).2 }.setIssuer
      ((p.setU d (some (genV4 s.env).1)).reply 0x00 [])) := by
  simp only [exec, execGenv4, State.atIssuer_some h, State.respond, statusOk]

theorem exec_genv1 (h : s.issuer = some p) (d : UReg) :
    exec (.genv1 d) s = .next ({ s with v1 := (genV1State s.v1 s.env).1, env := (genV1State s.v1 s.env).2 }.setIssuer
      ((p.setU d (some (v1Uuid (genV1State s.v1 s.env).1))).reply 0x00 [])) := by
  simp only [exec, execGenv1, State.atIssuer_some h, State.respond, statusOk]

theorem exec_v1init (h : s.issuer = some p) :
    exec .v1init s = .next ({ s with v1 := (v1Ready s.v1 s.env).1, env := (v1Ready s.v1 s.env).2 }.setIssuer
      (p.reply 0x00 [])) := by
  simp only [exec, execV1init, State.atIssuer_some h, State.respond, statusOk]

theorem exec_parse (h : s.issuer = some p) (d : UReg) (text : Text) :
    exec (.parse d text) s = .next (s.setIssuer ((p.setU d (parseText text)).reply (parseStatus (parseText text)) [])) := by
  simp only [exec, execParse, State.atIssuer_some h, State.respond]

theorem exec_tostr (h : s.issuer = some p) {r : UReg} {u : UuidVal} (hu : p.getU r = some u) :
    exec (.tostr r) s = .next (s.setIssuer (p.reply 0x00 (hexString u))) := by
  simp only [exec, execTostr, State.onSubject_present h hu, State.respond, statusOk]

theorem exec_eq (h : s.issuer = some p) {a : UReg} {u : UuidVal} (hu : p.getU a = some u) (b : UReg) :
    exec (.eq a b) s = .next (s.setIssuer (p.reply 0x00 [eqByte u (p.getU b)])) := by
  simp only [exec, execEq, State.onSubject_present h hu, State.respond, statusOk]

theorem exec_rdf (h : s.issuer = some p) {r : UReg} {u : UuidVal} (hu : p.getU r = some u) (f : FieldIx) (k : Rep) :
    exec (.rdf r f k) s = .next (s.setIssuer (p.reply 0x00 (fieldResult u f k))) := by
  simp only [exec, execRdf, State.onSubject_present h hu, State.respond, statusOk]

theorem exec_rdver (h : s.issuer = some p) {r : UReg} {u : UuidVal} (hu : p.getU r = some u) :
    exec (.rdver r) s = .next (s.setIssuer (p.reply 0x00 [(version u).setWidth 8])) := by
  simp only [exec, execRdver, State.onSubject_present h hu, State.respond, statusOk]

theorem exec_rdbits (h : s.issuer = some p) {r : UReg} {u : UuidVal} (hu : p.getU r = some u) :
    exec (.rdbits r) s = .next (s.setIssuer (p.reply 0x00 (bitString u))) := by
  simp only [exec, execRdbits, State.onSubject_present h hu, State.respond, statusOk]

/-- The five commands with a subject register, when it is absent. -/
theorem exec_absent (h : s.issuer = some p) {r : UReg} (hu : p.getU r = none) {i : Instr}
    (hi : i = .tostr r ∨ (∃ b, i = .eq r b) ∨ (∃ f k, i = .rdf r f k) ∨ i = .rdver r ∨ i = .rdbits r) :
    exec i s = .next (s.setIssuer (p.takeFault (.absentOperand r))) := by
  rcases hi with rfl | ⟨b, rfl⟩ | ⟨f, k, rfl⟩ | rfl | rfl <;> exact State.onSubject_absent h hu _

theorem exec_rndbits (h : s.issuer = some p) {w : Byte} (hw : w.toNat ≤ 53) :
    exec (.rndbits w) s = .next ({ s with env := (randomBits w.toNat s.env).2 }.setIssuer
      (p.reply 0x00 (intResult (randomBits w.toNat s.env).1))) := by
  have hn : ¬ rndMax < w.toNat := Nat.not_lt.mpr hw
  simp only [exec, execRndbits]
  rw [if_neg hn, State.atIssuer_some h]
  rfl

theorem exec_rndbits_range (h : s.issuer = some p) {w : Byte} (hw : 53 < w.toNat) :
    exec (.rndbits w) s = .next (s.setIssuer (p.takeFault (.widthRange w))) := by
  have hn : rndMax < w.toNat := hw
  simp only [exec, execRndbits]
  rw [if_pos hn, State.raise_eq h]

theorem exec_fmt (h : s.issuer = some p) {v : Word64} {l r : Byte} (h2 : 2 ≤ r.toNat) (h36 : r.toNat ≤ 36)
    (hl : l.toNat ≤ 128) (hd : (digits v.toNat r.toNat).length ≤ l.toNat) :
    exec (.fmt v l r) s = .next (s.setIssuer (p.reply 0x00 (alignNumber v.toNat l.toNat r.toNat))) := by
  have c1 : ¬ (r.toNat < radixMin ∨ radixMax < r.toNat) := by simp only [radixMin, radixMax]; omega
  have c2 : ¬ fmtMaxLen < l.toNat := Nat.not_lt.mpr hl
  simp only [exec, execFmt]
  rw [if_neg c1, if_neg c2, if_neg (Nat.not_lt.mpr hd), State.atIssuer_some h]
  rfl

theorem exec_fmt_radix (h : s.issuer = some p) {v : Word64} {l r : Byte} (hr : r.toNat < 2 ∨ 36 < r.toNat) :
    exec (.fmt v l r) s = .next (s.setIssuer (p.takeFault (.radixRange r))) := by
  have c1 : r.toNat < radixMin ∨ radixMax < r.toNat := hr
  simp only [exec, execFmt]
  rw [if_pos c1, State.raise_eq h]

theorem exec_fmt_overflow (h : s.issuer = some p) {v : Word64} {l r : Byte} (h2 : 2 ≤ r.toNat) (h36 : r.toNat ≤ 36)
    (ho : 128 < l.toNat ∨ l.toNat < (digits v.toNat r.toNat).length) :
    exec (.fmt v l r) s = .next (s.setIssuer (p.takeFault (.formatOverflow l))) := by
  have c1 : ¬ (r.toNat < radixMin ∨ radixMax < r.toNat) := by simp only [radixMin, radixMax]; omega
  simp only [exec, execFmt]
  rw [if_neg c1]
  by_cases c2 : fmtMaxLen < l.toNat
  · rw [if_pos c2, State.raise_eq h]
  · have c3 : l.toNat < (digits v.toNat r.toNat).length := ho.resolve_left c2
    rw [if_neg c2, if_pos c3, State.raise_eq h]

/-! ## Once for all commands -/

/-- `GENV1` and `V1INIT`, the two commands that touch `V1`. -/
def TouchesV1 (i : Instr) : Prop := i = .v1init ∨ ∃ d, i = .genv1 d

/-- What a command that answers a response (not a fault) may leave: the new `V1` `v`, the inputs `e`, the issuing
port `w` before its response is added, and the response `st :: pl`. -/
structure Effect (i : Instr) (s : State) (p : Port) (v : V1State) (e : Env) (w : Port) (st : Byte) (pl : List Byte) :
    Prop where
  keep     : destOf i = none → w = p
  dest     : ∀ d, destOf i = some d → ∃ u, w = p.setU d u ∧ (u = none → ∃ text, i = .parse d text)
  v1       : ¬ TouchesV1 i → v = s.v1
  inited   : s.v1.inited = true → v.inited = true ∧ v.node = s.v1.node
  v1init   : i = .v1init → s.v1.inited = true → v = s.v1
  v1inv    : s.v1.Inv → v.Inv
  clock    : (∀ d, i ≠ .genv1 d) → SameClock s.env e
  env      : ¬ TouchesV1 i → (∀ d, i ≠ .genv4 d) → (∀ w, i ≠ .rndbits w) → e = s.env
  status   : st = 0x00 ∨ (st = 0x01 ∧ ∃ d text, i = .parse d text)
  okLength : st = 0x00 → pl.length = payloadLength i
  noResult : st ≠ 0x00 → pl = []
  eqBit    : ∀ a b, i = .eq a b → ∀ c ∈ pl, c = 0x00 ∨ c = 0x01
  nibble   : ∀ u, i = .rdver u → ∀ c ∈ pl, c.toNat ≤ 0x0F

theorem v1Ready_inv {v : V1State} (h : v.Inv) (e : Env) : (v1Ready v e).1.Inv := by
  cases hi : v.inited with
  | true => rw [v1Ready_inited hi]; exact h
  | false =>
    rw [v1Ready_not_inited hi]
    intro _
    refine ⟨by rw [v1Init_tick]; decide, BitVec.isLt _, ?_, BitVec.isLt _, BitVec.isLt _⟩
    rw [(v1Init_spec e).2.2.2]
    exact getLsbD_zero_or_one _

theorem genV1State_inv {v : V1State} (h : v.Inv) (e : Env) : (genV1State v e).1.Inv := by
  obtain ⟨a, -, -⟩ := v1Ready_inv h e (v1Ready_fst_inited v e)
  obtain ⟨-, -, c, -, -⟩ := v1Ready_inv h e (v1Ready_fst_inited v e)
  obtain ⟨-, -, n, -, -, -, -, t⟩ := genV1State_spec v e
  exact fun _ => ⟨t a, BitVec.isLt _, by rw [n]; exact c, BitVec.isLt _, BitVec.isLt _⟩

/-- The effect of a command that writes no register and touches neither `V1` nor the inputs. -/
theorem effect_read {i : Instr} {pl : List Byte} (hr : isRead i = true) (hl : pl.length = payloadLength i)
    (he : ∀ a b, i = .eq a b → ∀ c ∈ pl, c = 0x00 ∨ c = 0x01)
    (hv : ∀ u, i = .rdver u → ∀ c ∈ pl, c.toNat ≤ 0x0F) : Effect i s p s.v1 s.env p 0x00 pl where
  keep _ := rfl
  dest d hd := by cases i <;> simp_all [destOf, isRead]
  v1 _ := rfl
  inited h := ⟨h, rfl⟩
  v1init _ _ := rfl
  v1inv := id
  clock _ := ⟨rfl, rfl, rfl, rfl⟩
  env _ _ _ := rfl
  status := .inl rfl
  okLength _ := hl
  noResult h := absurd rfl h
  eqBit := he
  nibble := hv

/-- The two shapes of a command's next state: it takes a fault, or it answers. -/
theorem exec_cases (h : s.issuer = some p) (i : Instr) :
    (∃ f, exec i s = .next (s.setIssuer (p.takeFault f)) ∧ destOf i = none ∧ ¬ TouchesV1 i ∧ (∀ d, i ≠ .genv4 d))
    ∨ ∃ v e w st pl, exec i s = .next ({ s with v1 := v, env := e }.setIssuer (w.reply st pl))
        ∧ Effect i s p v e w st pl := by
  have subject (r : UReg) (hd : destOf i = none) (h1 : ¬ TouchesV1 i) (h4 : ∀ d, i ≠ .genv4 d)
      (hi : i = .tostr r ∨ (∃ b, i = .eq r b) ∨ (∃ f k, i = .rdf r f k) ∨ i = .rdver r ∨ i = .rdbits r)
      (hp : ∀ u, p.getU r = some u → ∃ pl, exec i s = .next (s.setIssuer (p.reply 0x00 pl))
        ∧ Effect i s p s.v1 s.env p 0x00 pl) :
      (∃ f, exec i s = .next (s.setIssuer (p.takeFault f)) ∧ destOf i = none ∧ ¬ TouchesV1 i ∧ (∀ d, i ≠ .genv4 d))
      ∨ ∃ v e w st pl, exec i s = .next ({ s with v1 := v, env := e }.setIssuer (w.reply st pl))
          ∧ Effect i s p v e w st pl := by
    cases hu : p.getU r with
    | none => exact .inl ⟨_, exec_absent h hu hi, hd, h1, h4⟩
    | some u =>
      obtain ⟨pl, a, b⟩ := hp u hu
      exact .inr ⟨_, _, _, _, _, a, b⟩
  cases i with
  | init d a =>
    refine .inr ⟨s.v1, s.env, _, _, _, exec_init h d a, ?_⟩
    constructor <;> try simp [destOf, TouchesV1, SameClock, payloadLength]
    exact ⟨_, rfl, by simp⟩
  | genv4 d =>
    refine .inr ⟨s.v1, _, _, _, _, exec_genv4 h d, ?_⟩
    constructor <;> try simp [destOf, TouchesV1, payloadLength]
    · exact ⟨_, rfl, by simp⟩
    · exact genV4_sameClock _
  | genv1 d =>
    refine .inr ⟨_, _, _, _, _, exec_genv1 h d, ?_⟩
    constructor <;> try simp [destOf, TouchesV1, payloadLength]
    · exact ⟨_, rfl, by simp⟩
    · intro hi
      obtain ⟨a, -, b, -⟩ := genV1State_spec s.v1 s.env
      exact ⟨a, by rw [b, v1Ready_inited hi]⟩
    · exact fun hi => genV1State_inv hi s.env
  | v1init =>
    refine .inr ⟨_, _, _, _, _, exec_v1init h, ?_⟩
    constructor <;> try simp [destOf, TouchesV1, payloadLength]
    · intro hi
      rw [v1Ready_inited hi]
    · intro hi
      rw [v1Ready_inited hi]
    · exact fun hi => v1Ready_inv hi s.env
    · exact v1Ready_sameClock _ _
  | parse d text =>
    refine .inr ⟨s.v1, s.env, _, _, _, exec_parse h d text, ?_⟩
    constructor <;> try simp [destOf, TouchesV1, SameClock, payloadLength]
    rw [parseStatus, statusOk, statusAbsent]
    split <;> simp
  | tostr r =>
    refine subject r rfl (by simp [TouchesV1]) (by simp) (by simp) fun u hu => ⟨_, exec_tostr h hu, ?_⟩
    exact effect_read rfl (hexString_length u) (by simp) (by simp)
  | eq a b =>
    refine subject a rfl (by simp [TouchesV1]) (by simp) (by simp) fun u hu => ⟨_, exec_eq h hu b, ?_⟩
    refine effect_read rfl rfl (fun _ _ _ c hc => ?_) (by simp)
    rw [List.mem_singleton.mp hc, eqByte_eq]
    split <;> simp
  | rdf r f k =>
    refine subject r rfl (by simp [TouchesV1]) (by simp) (by simp) fun u hu => ⟨_, exec_rdf h hu f k, ?_⟩
    refine effect_read rfl ?_ (by simp) (by simp)
    cases k
    · rfl
    · exact fieldBin_length u f
    · exact fieldHex_length u f
  | rdver r =>
    refine subject r rfl (by simp [TouchesV1]) (by simp) (by simp) fun u hu => ⟨_, exec_rdver h hu, ?_⟩
    refine effect_read rfl rfl (by simp) fun _ _ c hc => ?_
    rw [List.mem_singleton.mp hc]
    have := (version u).isLt
    simp only [BitVec.toNat_setWidth]
    omega
  | rdbits r =>
    refine subject r rfl (by simp [TouchesV1]) (by simp) (by simp) fun u hu => ⟨_, exec_rdbits h hu, ?_⟩
    exact effect_read rfl (bitString_length u) (by simp) (by simp)
  | rndbits w =>
    by_cases hw : w.toNat ≤ 53
    · refine .inr ⟨s.v1, _, _, _, _, exec_rndbits h hw, ?_⟩
      constructor <;> try simp [destOf, TouchesV1, payloadLength]
      · exact randomBits_sameClock _ _
      · rfl
    · exact .inl ⟨_, exec_rndbits_range h (by omega), rfl, by simp [TouchesV1], by simp⟩
  | fmt v l r =>
    by_cases hr : r.toNat < 2 ∨ 36 < r.toNat
    · exact .inl ⟨_, exec_fmt_radix h hr, rfl, by simp [TouchesV1], by simp⟩
    · by_cases ho : 128 < l.toNat ∨ l.toNat < (digits v.toNat r.toNat).length
      · exact .inl ⟨_, exec_fmt_overflow h (by omega) (by omega) ho, rfl, by simp [TouchesV1], by simp⟩
      · refine .inr ⟨s.v1, s.env, _, _, _, exec_fmt h (by omega) (by omega) (by omega) (by omega), ?_⟩
        refine effect_read rfl ?_ (by simp) (by simp)
        rw [alignNumber_eq_fixedDigits (by omega) (by omega), fixedDigits_length]
        rfl

/-- A command of a port that does not exist stops. -/
theorem exec_none (h : s.issuer = none) (i : Instr) : exec i s = .fault .noSuchPort := by
  have a (k : Port → Result) : s.atIssuer k = .fault .noSuchPort := State.atIssuer_none h k
  cases i <;> simp only [exec, execInit, execGenv4, execGenv1, execV1init, execParse, execTostr, execEq, execRdf,
    execRdver, execRdbits, execRndbits, execFmt, State.onSubject, a]
  · split
    · exact State.raise_none h _
    · rfl
  · split
    · exact State.raise_none h _
    · split
      · exact State.raise_none h _
      · split
        · exact State.raise_none h _
        · rfl

/-- A command that answers a next state was issued by a port that exists. -/
theorem issuer_of_exec_next {i : Instr} {t : State} (h : exec i s = .next t) : ∃ p, s.issuer = some p := by
  cases hp : s.issuer with
  | none => rw [exec_none hp] at h; cases h
  | some p => exact ⟨p, rfl⟩

end Sys2Proof.Machine
end

