-- ==== Sys2Proof/Laws/Fetch.lean ====
section
/-! SUPPORT. The port arbiter and the packet handed over by it (20_memory.md R36, R37): when there is one, where it
comes from, and everything that taking it changes. And the three shapes of a step. -/

namespace Sys2Proof.Machine

/-! ## The waiting ports -/

theorem State.mem_waiting (s : State) (n : Nat) :
    n ∈ s.waiting ↔ ∃ c, s.ports[n]? = some c ∧ c.queue ≠ [] := by
  simp only [State.waiting, List.mem_filter, List.mem_range, State.hasCommand]
  constructor
  · rintro ⟨hn, h⟩
    rw [List.getElem?_eq_getElem hn] at h
    exact ⟨_, List.getElem?_eq_getElem hn, by simpa using h⟩
  · rintro ⟨c, hc, hq⟩
    refine ⟨(List.getElem?_eq_some_iff.mp hc).1, ?_⟩
    rw [hc]
    simpa using hq

/-! ## The arbiter -/

/-- The arbiter names a waiting port, and takes at most one arbiter choice. -/
theorem State.arbitrate_eq_some {s : State} {n : Nat} {e : Env} (h : s.arbitrate = some (n, e)) :
    n ∈ s.waiting ∧ (e = s.env ∨ e = s.env.pick.2) := by
  unfold State.arbitrate at h
  split at h
  · cases h
  · rename_i hw
    cases h
    exact ⟨by rw [hw]; simp, .inl rfl⟩
  · rename_i p q ps hw
    cases h
    refine ⟨?_, .inr rfl⟩
    rw [hw]
    have hlt : s.env.pick.1 % (p :: q :: ps).length < (p :: q :: ps).length := Nat.mod_lt _ (by simp)
    rw [List.getD_eq_getElem _ _ hlt]
    exact List.getElem_mem hlt

theorem State.arbitrate_eq_none (s : State) : s.arbitrate = none ↔ s.waiting = [] := by
  unfold State.arbitrate
  split <;> simp [*]

/-- The arbiter can be made to name any waiting port. -/
theorem State.arbitrate_any {s : State} {n : Nat} (h : n ∈ s.waiting) :
    ∃ picks e, ({ s with env := { s.env with picks := picks } } : State).arbitrate = some (n, e)
      ∧ e.draws = s.env.draws ∧ e.clocks = s.env.clocks := by
  obtain ⟨k, hk, rfl⟩ := List.getElem_of_mem h
  refine ⟨[k], ?_⟩
  have hw : ({ s with env := { s.env with picks := [k] } } : State).waiting = s.waiting := rfl
  unfold State.arbitrate
  split
  · rename_i h0
    rw [hw] at h0
    simp [h0] at hk
  · rename_i p h1
    rw [hw] at h1
    refine ⟨{ s.env with picks := [k] }, ?_, rfl, rfl⟩
    simp only [h1, List.length_singleton] at hk ⊢
    obtain rfl : k = 0 := by omega
    rfl
  · rename_i p q ps h2
    rw [hw] at h2
    refine ⟨({ s.env with picks := [k] } : Env).pick.2, ?_, rfl, rfl⟩
    have hk' : k < (p :: q :: ps).length := by rw [← h2]; exact hk
    have he : (p :: q :: ps).getD (k % (p :: q :: ps).length) p = s.waiting[k] := by
      rw [Nat.mod_eq_of_lt hk', List.getD_eq_getElem _ _ hk']
      simp only [← h2]
    rw [← he]
    rfl

/-! ## The packet handed over -/

/-- Everything that handing over a packet does: it is the oldest of the issuing port's commands, it leaves that
port's queue, at most one arbiter choice is taken, and nothing else changes. -/
theorem State.fetch_eq_some {s s1 : State} {pkt : Packet} (h : s.fetch = some (pkt, s1)) :
    ∃ c rest e, s.ports[s1.cur]? = some c ∧ c.queue = pkt :: rest
      ∧ s1 = { s with ports := s.ports.set s1.cur { c with queue := rest }, env := e, cur := s1.cur }
      ∧ (e = s.env ∨ e = s.env.pick.2) := by
  unfold State.fetch at h
  split at h
  · cases h
  · rename_i n e ha
    split at h
    · cases h
    · rename_i c hc
      split at h
      · cases h
      · rename_i pkt' rest hq
        cases h
        exact ⟨c, rest, e, hc, hq, rfl, (State.arbitrate_eq_some ha).2⟩

/-- After a packet has been handed over, the issuing port is the one it came from. -/
theorem State.fetch_issuer {s s1 : State} {pkt : Packet} (h : s.fetch = some (pkt, s1)) :
    ∃ c rest, s.ports[s1.cur]? = some c ∧ c.queue = pkt :: rest ∧ s1.issuer = some { c with queue := rest }
      ∧ s1.ports = s.ports.set s1.cur { c with queue := rest } ∧ s1.v1 = s.v1 ∧ s1.resetReq = s.resetReq := by
  obtain ⟨c, rest, e, hc, hq, hs, -⟩ := State.fetch_eq_some h
  have hp : s1.ports = s.ports.set s1.cur { c with queue := rest } := by rw [hs]
  refine ⟨c, rest, hc, hq, ?_, hp, by rw [hs], by rw [hs]⟩
  rw [State.issuer, hp, List.getElem?_set_self (List.getElem?_eq_some_iff.mp hc).1]

/-- Handing over a packet takes no draw and no clock sample, and at most one arbiter choice. -/
theorem State.fetch_env {s s1 : State} {pkt : Packet} (h : s.fetch = some (pkt, s1)) :
    s1.env.draws = s.env.draws ∧ s1.env.drawn = s.env.drawn ∧ s1.env.clocks = s.env.clocks
    ∧ s1.env.sampled = s.env.sampled ∧ (s1.env = s.env ∨ s1.env = s.env.pick.2) := by
  obtain ⟨c, rest, e, -, -, hs, he⟩ := State.fetch_eq_some h
  obtain rfl : s1.env = e := by rw [hs]
  rcases he with he | he <;> rw [he] <;> simp [Env.pick]

/-- No packet is handed over exactly when no port waits. -/
theorem State.fetch_eq_none (s : State) : s.fetch = none ↔ s.waiting = [] := by
  rw [← State.arbitrate_eq_none]
  unfold State.fetch
  split
  · rename_i h
    simp [h]
  · rename_i n e h
    obtain ⟨c, hc, hq⟩ := (s.mem_waiting n).mp (State.arbitrate_eq_some h).1
    simp only [hc]
    split
    · rename_i hq'; exact absurd hq' hq
    · simp [h]

/-- A port the arbiter names hands over its oldest command. -/
theorem State.fetch_of_arbitrate {s : State} {n : Nat} {e : Env} {c : Port} {pkt : Packet} {rest : List Packet}
    (h : s.arbitrate = some (n, e)) (hc : s.ports[n]? = some c) (hq : c.queue = pkt :: rest) :
    s.fetch = some (pkt, { s with ports := s.ports.set n { c with queue := rest }, env := e, cur := n }) := by
  simp only [State.fetch, h, hc, hq]

/-! ## How many commands wait -/

theorem sum_queue_set {ps : List Port} {n : Nat} {c d : Port} (hc : ps[n]? = some c) :
    ((ps.set n d).map fun p => p.queue.length).sum + c.queue.length
      = (ps.map fun p => p.queue.length).sum + d.queue.length := by
  induction ps generalizing n with
  | nil => simp at hc
  | cons p ps ih =>
    cases n with
    | zero =>
      obtain rfl : p = c := by simpa using hc
      simp only [List.set_cons_zero, List.map_cons, List.sum_cons]
      omega
    | succ n =>
      have := ih (n := n) (by simpa using hc)
      simp only [List.set_cons_succ, List.map_cons, List.sum_cons]
      omega

/-- Nothing waits exactly when no packet would be handed over. -/
theorem State.pending_eq_zero (s : State) : s.pending = 0 ↔ s.fetch = none := by
  rw [State.fetch_eq_none, List.eq_nil_iff_forall_not_mem]
  simp only [State.mem_waiting, not_exists, not_and, not_not, State.pending, List.sum_eq_zero_iff, List.mem_map,
    forall_exists_index, and_imp, forall_apply_eq_imp_iff₂, List.length_eq_zero_iff]
  constructor
  · intro h n c hc
    exact h c (List.mem_of_getElem? hc)
  · intro h c hc
    obtain ⟨n, hn⟩ := List.getElem?_of_mem hc
    exact h n c hn

/-- Handing over a packet leaves one command less. -/
theorem State.fetch_pending {s s1 : State} {pkt : Packet} (h : s.fetch = some (pkt, s1)) :
    s1.pending + 1 = s.pending := by
  obtain ⟨c, rest, hc, hq, -, hp, -⟩ := State.fetch_issuer h
  have := sum_queue_set (d := { c with queue := rest }) hc
  simp only [State.pending, hp]
  simp only [hq, List.length_cons] at this
  omega

/-! ## The shapes of a step -/

theorem step_reset {s : State} (h : s.resetReq = true) : step s = .next s.takeReset := by
  simp [step, h]

theorem step_idle {s : State} (h : s.resetReq = false) (hf : s.fetch = none) : step s = .next s := by
  simp [step, h, hf]

theorem step_exec {s s1 : State} {pkt : Packet} {i : Instr} (h : s.resetReq = false) (hf : s.fetch = some (pkt, s1))
    (hd : decode pkt = .ok i) : step s = exec i s1 := by
  simp [step, h, hf, hd]

theorem step_raise {s s1 : State} {pkt : Packet} {f : CmdFault} (h : s.resetReq = false)
    (hf : s.fetch = some (pkt, s1)) (hd : decode pkt = .error f) : step s = s1.raise f := by
  simp [step, h, hf, hd]

end Sys2Proof.Machine
end

