-- ==== Sys2Proof/Laws/PerInstr.lean ====
section
/-! SUPPORT. The family `OpcodeByte`, one lemma per constructor of `Instr` (LAWS.json): a command's packet starts
with an opcode byte that carries the command's opcode, with no must-be-zero bit set (30_encoding.md R46, R51,
R54). -/

namespace Sys2Proof

/-- The opcode of a command (30_encoding.md R51). -/
def opOf : Instr → Op
  | .init _ _    => .init
  | .genv4 _     => .genv4
  | .genv1 _     => .genv1
  | .v1init      => .v1init
  | .parse _ _   => .parse
  | .tostr _     => .tostr
  | .eq _ _      => .eq
  | .rdf _ _ _   => .rdf
  | .rdver _     => .rdver
  | .rdbits _    => .rdbits
  | .rndbits _   => .rndbits
  | .fmt _ _ _   => .fmt

namespace Laws.OpcodeByte

/-- The first byte of the command's packet. -/
def Statement (i : Instr) : Prop :=
  ∃ b rest, encode i = b :: rest ∧ opOfByte b = some (opOf i) ∧ b &&& mustBeZero (opOf i) = 0

theorem opByte_low (op : Op) (ra : UReg) (h : mustBeZero op = 0x03) : opByte op ra .u0 &&& mustBeZero op = 0 := by
  cases op <;> cases ra <;> revert h <;> decide

theorem opByte_nibble (op : Op) : opByte op .u0 .u0 &&& mustBeZero op = 0 := by
  cases op <;> decide

theorem init (d : UReg) (args : InitArgs) : Statement (.init d args) :=
  ⟨_, _, rfl, opOfByte_opByte _ _ _, opByte_low _ _ rfl⟩

theorem genv4 (d : UReg) : Statement (.genv4 d) := ⟨_, _, rfl, opOfByte_opByte _ _ _, opByte_low _ _ rfl⟩

theorem genv1 (d : UReg) : Statement (.genv1 d) := ⟨_, _, rfl, opOfByte_opByte _ _ _, opByte_low _ _ rfl⟩

theorem v1init : Statement .v1init := ⟨_, _, rfl, opOfByte_opByte _ _ _, opByte_nibble _⟩

theorem parse (d : UReg) (text : Text) : Statement (.parse d text) :=
  ⟨_, _, rfl, opOfByte_opByte _ _ _, opByte_low _ _ rfl⟩

theorem tostr (u : UReg) : Statement (.tostr u) := ⟨_, _, rfl, opOfByte_opByte _ _ _, opByte_low _ _ rfl⟩

theorem eq (a b : UReg) : Statement (.eq a b) :=
  ⟨_, _, rfl, opOfByte_opByte _ _ _, by cases a <;> cases b <;> decide⟩

theorem rdf (u : UReg) (field : FieldIx) (rep : Rep) : Statement (.rdf u field rep) :=
  ⟨_, _, rfl, opOfByte_opByte _ _ _, opByte_low _ _ rfl⟩

theorem rdver (u : UReg) : Statement (.rdver u) := ⟨_, _, rfl, opOfByte_opByte _ _ _, opByte_low _ _ rfl⟩

theorem rdbits (u : UReg) : Statement (.rdbits u) := ⟨_, _, rfl, opOfByte_opByte _ _ _, opByte_low _ _ rfl⟩

theorem rndbits (width : Byte) : Statement (.rndbits width) := ⟨_, _, rfl, opOfByte_opByte _ _ _, opByte_nibble _⟩

theorem fmt (value : Word64) (length radix : Byte) : Statement (.fmt value length radix) :=
  ⟨_, _, rfl, opOfByte_opByte _ _ _, opByte_nibble _⟩

end Laws.OpcodeByte

end Sys2Proof
end

