-- ==== Sys2Proof/Laws/Step.lean ====
section
/-! SUPPORT. Everything one step can do: reset, nothing, a fault of the issuing port, or a command's effect. -/

namespace Sys2Proof.Machine

/-- A command's effect leaves the issuing port's queue, `FAULT` and earlier responses alone. -/
theorem Effect.port {i : Instr} {s : State} {p w : Port} {v : V1State} {e : Env} {st : Byte} {pl : List Byte}
    (h : Effect i s p v e w st pl) : w.queue = p.queue ∧ w.responses = p.responses ∧ w.fault = p.fault := by
  cases hd : destOf i with
  | none => rw [h.keep hd]; exact ⟨rfl, rfl, rfl⟩
  | some d =>
    obtain ⟨u, rfl, -⟩ := h.dest d hd
    simp

/-- A command issued by a port that exists answers a next state. -/
theorem exec_next {s : State} {p : Port} (h : s.issuer = some p) (i : Instr) : ∃ t, exec i s = .next t := by
  rcases exec_cases h i with ⟨f, hx, -⟩ | ⟨v, e, w, st, pl, hx, -⟩ <;> exact ⟨_, hx⟩

/-- A step that executes a packet: the issuing port takes a fault, or the packet decodes and its command has its
effect. -/
theorem step_cases {s s1 t : State} {pkt : Packet} {p : Port} (hr : s.resetReq = false)
    (hf : s.fetch = some (pkt, s1)) (hp : s1.issuer = some p) (ht : step s = .next t) :
    (∃ f, t = s1.setIssuer (p.takeFault f))
    ∨ ∃ i v e w st pl, decode pkt = .ok i ∧ t = { s1 with v1 := v, env := e }.setIssuer (w.reply st pl)
        ∧ Effect i s1 p v e w st pl := by
  cases hd : decode pkt with
  | error f =>
    rw [step_raise hr hf hd, State.raise_eq hp] at ht
    cases ht
    exact .inl ⟨f, rfl⟩
  | ok i =>
    rw [step_exec hr hf hd] at ht
    rcases exec_cases hp i with ⟨f, hx, -⟩ | ⟨v, e, w, st, pl, hx, ef⟩
    · rw [hx] at ht
      cases ht
      exact .inl ⟨f, rfl⟩
    · rw [hx] at ht
      cases ht
      exact .inr ⟨i, v, e, w, st, pl, rfl, rfl, ef⟩

/-- After a step the list of ports has one entry replaced: the issuing port has lost the executed packet from its
queue and has given one response more. -/
theorem step_ports {s s1 t : State} {pkt : Packet} (hr : s.resetReq = false) (hf : s.fetch = some (pkt, s1))
    (ht : step s = .next t) :
    ∃ c rest q resp, s.ports[s1.cur]? = some c ∧ c.queue = pkt :: rest ∧ t.ports = s.ports.set s1.cur q
      ∧ q.queue = rest ∧ q.responses = c.responses ++ [resp] ∧ t.resetReq = false := by
  obtain ⟨c, rest, hc, hq, hi, hp, -, hrr⟩ := State.fetch_issuer hf
  rcases step_cases hr hf hi ht with ⟨f, rfl⟩ | ⟨i, v, e, w, st, pl, -, rfl, ef⟩
  · exact ⟨c, rest, _, [statusOfFault f], hc, hq, by rw [State.setIssuer_ports, hp, List.set_set], rfl, rfl,
      by rw [State.setIssuer_resetReq, hrr, hr]⟩
  · obtain ⟨a, b, -⟩ := ef.port
    exact ⟨c, rest, w.reply st pl, st :: pl, hc, hq, by simp only [State.setIssuer_ports, hp, List.set_set], a,
      by rw [Port.reply_responses, b], by simp only [State.setIssuer_resetReq, hrr, hr]⟩

/-- An executed packet leaves one command less waiting. -/
theorem step_pending {s s1 t : State} {pkt : Packet} (hr : s.resetReq = false) (hf : s.fetch = some (pkt, s1))
    (ht : step s = .next t) : t.pending + 1 = s.pending := by
  obtain ⟨c, rest, q, resp, hc, hq, hp, hqq, -⟩ := step_ports hr hf ht
  have h := sum_queue_set (d := q) hc
  simp only [State.pending, hp]
  simp only [hqq, hq, List.length_cons] at h
  omega

end Sys2Proof.Machine
end

