-- ==== Sys2Proof/Laws/Run.lean ====
section
/-! SUPPORT. What one step, and one step of a run, does to a port: nothing, or it executes that port's oldest
command. -/

namespace Sys2Proof.Machine

/-- A port has a command waiting exactly when it is among the waiting ports. -/
theorem State.hasCommand_iff (s : State) (n : Nat) :
    s.hasCommand n = true ↔ ∃ c, s.ports[n]? = some c ∧ c.queue ≠ [] := by
  unfold State.hasCommand
  cases h : s.ports[n]? <;> simp

/-- The port whose packet is handed over is the one the arbiter serves. -/
theorem State.serves_cur {s s1 : State} {pkt : Packet} (h : s.fetch = some (pkt, s1)) : s.Serves s1.cur := by
  unfold State.fetch at h
  split at h
  · cases h
  · rename_i n e ha
    split at h
    · cases h
    · split at h <;> cases h
      exact ⟨e, ha⟩

/-- The arbiter serves one port. -/
theorem State.Serves.unique {s : State} {n m : Nat} (hn : s.Serves n) (hm : s.Serves m) : n = m := by
  obtain ⟨e, he⟩ := hn
  obtain ⟨f, hf⟩ := hm
  rw [he] at hf
  cases hf
  rfl

/-- A served port hands over its oldest command. -/
theorem State.Serves.fetch {s : State} {n : Nat} (h : s.Serves n) : ∃ pkt s1, s.fetch = some (pkt, s1) ∧ s1.cur = n := by
  obtain ⟨e, he⟩ := h
  obtain ⟨c, hc, hq⟩ := (s.mem_waiting n).mp (State.arbitrate_eq_some he).1
  obtain ⟨pkt, rest, hq⟩ := List.exists_cons_of_ne_nil hq
  exact ⟨pkt, _, State.fetch_of_arbitrate he hc hq, rfl⟩

/-- A step keeps the number of ports. -/
theorem step_length {s t : State} (hr : s.resetReq = false) (ht : step s = .next t) :
    t.ports.length = s.ports.length ∧ t.resetReq = false := by
  cases hf : s.fetch with
  | none => rw [step_idle hr hf] at ht; cases ht; exact ⟨rfl, hr⟩
  | some x =>
    obtain ⟨c, rest, q, resp, -, -, hp, -, -, hrr⟩ := step_ports (pkt := x.1) (s1 := x.2) hr hf ht
    exact ⟨by rw [hp, List.length_set], hrr⟩

/-- What a step does to port `n`: served, it loses its oldest packet and gains one response; otherwise its context
is unchanged. -/
theorem step_port {s t : State} {n : Nat} {c : Port} (hr : s.resetReq = false) (ht : step s = .next t)
    (hc : s.ports[n]? = some c) :
    (¬ s.Serves n ∧ t.ports[n]? = some c)
    ∨ (s.Serves n ∧ ∃ pkt rest q resp, c.queue = pkt :: rest ∧ t.ports[n]? = some q ∧ q.queue = rest
        ∧ q.responses = c.responses ++ [resp]) := by
  cases hf : s.fetch with
  | none =>
    rw [step_idle hr hf] at ht
    cases ht
    refine .inl ⟨fun h => ?_, hc⟩
    obtain ⟨_, _, h, -⟩ := h.fetch
    rw [hf] at h
    cases h
  | some x =>
    obtain ⟨pkt, s1⟩ := x
    obtain ⟨d, rest, q, resp, hd, hq, hp, hqq, hqr, -⟩ := step_ports hr hf ht
    by_cases hn : s1.cur = n
    · subst hn
      obtain rfl : c = d := by rw [hc] at hd; exact Option.some.inj hd
      refine .inr ⟨State.serves_cur hf, pkt, rest, q, resp, hq, ?_, hqq, hqr⟩
      rw [hp, List.getElem?_set_self (List.getElem?_eq_some_iff.mp hc).1]
    · refine .inl ⟨fun h => hn ((State.serves_cur hf).unique h), ?_⟩
      rw [hp, List.getElem?_set_ne hn, hc]

/-- The outside may do nothing. -/
theorem Inputs.refl (s : State) : Inputs s s :=
  ⟨rfl, fun _ c hc => ⟨[], by rw [hc, List.append_nil]⟩, rfl, rfl, rfl, rfl, rfl, rfl⟩

/-- What one step of a run, with the inputs after it, does to port `n`. -/
theorem Advances.port {τ : Nat → State} {k n : Nat} {c : Port} (h : Advances τ k) (hc : (τ k).ports[n]? = some c) :
    ∃ d sent, (τ (k + 1)).ports[n]? = some d
      ∧ ((¬ (τ k).Serves n ∧ d.queue = c.queue ++ sent ∧ d.responses = c.responses)
        ∨ ((τ k).Serves n ∧ ∃ pkt rest resp, c.queue = pkt :: rest ∧ d.queue = rest ++ sent
            ∧ d.responses = c.responses ++ [resp])) := by
  obtain ⟨hr, t, ht, -, hin, -⟩ := h
  rcases step_port hr ht hc with ⟨hs, hq⟩ | ⟨hs, pkt, rest, q, resp, hcq, htq, hqq, hqr⟩
  · obtain ⟨sent, hd⟩ := hin n c hq
    exact ⟨_, sent, hd, .inl ⟨hs, rfl, rfl⟩⟩
  · obtain ⟨sent, hd⟩ := hin n q htq
    exact ⟨_, sent, hd, .inr ⟨hs, pkt, rest, resp, hcq, by rw [hqq], hqr⟩⟩

/-- A port keeps its waiting commands and its responses as long as it is not served; packets sent wait behind. -/
theorem port_until_served {τ : Nat → State} {k n : Nat} {c : Port} (h : ∀ m, Advances τ m)
    (hc : (τ k).ports[n]? = some c) (m : Nat) (hn : ∀ l, k ≤ l → l < k + m → ¬ (τ l).Serves n) :
    ∃ d sent, (τ (k + m)).ports[n]? = some d ∧ d.queue = c.queue ++ sent ∧ d.responses = c.responses := by
  induction m with
  | zero => exact ⟨c, [], hc, by simp, rfl⟩
  | succ m ih =>
    obtain ⟨d, sent, hd, hdq, hdr⟩ := ih fun l a b => hn l a (by omega)
    obtain ⟨d', sent', hd', h'⟩ := (h (k + m)).port hd
    rcases h' with ⟨-, hq, hr⟩ | ⟨hs, -⟩
    · exact ⟨d', sent ++ sent', hd', by rw [hq, hdq, List.append_assoc], by rw [hr, hdr]⟩
    · exact absurd hs (hn (k + m) (by omega) (by omega))

end Sys2Proof.Machine
end

