-- ==== Sys2Proof/Tests/Slice0.lean ====
section
/-! SUPPORT. The model's own tests. Expected values are those of spec/95_test_vectors.md and of the examples of the
rules, copied from there; packets are written out from 30_encoding.md. After them one witness per obligation that
has hypotheses: concrete states and operands that meet them all. -/

namespace Sys2Proof.Tests

open Sys2Proof.Machine

/-! ## Helpers -/

/-- The value of test vector T1. -/
def uT1 : UuidVal :=
  { timeLow := 0x12345678, timeMid := 0x1234, timeHiAndVersion := 0x5678, clockSeqHiAndReserved := 0x9A,
    clockSeqLow := 0xBC, node := 0x123456789012 }

/-- The text of test vector T1, `<S1>`. -/
def textT1 : Text :=
  [0x31, 0x32, 0x33, 0x34, 0x35, 0x36, 0x37, 0x38, 0x2D, 0x31, 0x32, 0x33, 0x34, 0x2D, 0x35, 0x36, 0x37, 0x38]
    ++ [0x2D, 0x39, 0x61, 0x62, 0x63, 0x2D, 0x31, 0x32, 0x33, 0x34, 0x35, 0x36, 0x37, 0x38, 0x39, 0x30, 0x31, 0x32]

/-- One port with the given `U0`, the given `V1`, draws and clock samples. -/
def st (u : Option UuidVal) (v : V1State) (draws : List (BitVec 30)) (clocks : List (BitVec 48)) : State :=
  { State.reset with
    ports := [{ Port.reset with u0 := u }]
    v1    := v
    env   := { Env.reset with draws := draws, clocks := clocks } }

/-- A `V1` that exists. -/
def v1Of (timestamp : BitVec 48) (tick sequence : BitVec 14) (node : BitVec 48) : V1State :=
  { inited := true, timestamp := timestamp, sequence := sequence, node := node, tick := tick }

/-- The state after the one command `pkt` on port 0. -/
def after (s : State) (pkt : Packet) : State :=
  match step (s.placeCommand pkt) with
  | .next t    => t
  | .fault _   => s
  | .refused _ => s

/-- The latest response of port 0. -/
def resp (s : State) : Packet := (s.ports.headD Port.reset).responses.getLastD []

/-- The context of port 0. -/
def port0 (s : State) : Port := s.ports.headD Port.reset

/-! ## WellFormed -/

/-- The one ill-formed term: a text longer than `TEXT_MAXLEN` (00_scope.md R5). -/
theorem test_wellFormed_text_256 : (Instr.parse .u0 (List.replicate 256 0x61)).wellFormed = false := by
  simp only [Instr.wellFormed, List.length_replicate]
  decide

theorem test_wellFormed_text_255 : (Instr.parse .u0 (List.replicate 255 0x61)).wellFormed = true := by
  simp only [Instr.wellFormed, List.length_replicate]
  decide

/-! ## Decoding: a word of every constructor, written out from 30_encoding.md (R46, R47, R58, R59) -/

theorem test_decode_init : decode [0b0001_01_00, 0b00100001, 0, 0, 0, 0, 0x12, 0x34, 0x56, 0x78, 0, 0, 0x12, 0x34, 0x56, 0x78, 0x90, 0x12] = .ok (.init .u1 ⟨some 0x12345678, none, none, none, none, some 0x123456789012⟩) := by rfl

theorem test_decode_genv4 : decode [0b0010_10_00] = .ok (.genv4 .u2) := by rfl

theorem test_decode_genv1 : decode [0b0011_11_00] = .ok (.genv1 .u3) := by rfl

theorem test_decode_v1init : decode [0b0100_00_00] = .ok (.v1init) := by rfl

theorem test_decode_parse : decode [0b0101_01_00, 2, 0x61, 0x62] = .ok (.parse .u1 [0x61, 0x62]) := by rfl

theorem test_decode_tostr : decode [0b0110_11_00] = .ok (.tostr .u3) := by rfl

theorem test_decode_eq : decode [0b0111_01_11] = .ok (.eq .u1 .u3) := by rfl

theorem test_decode_rdf : decode [0b1000_10_00, 0b000_10_101] = .ok (.rdf .u2 .node .hex) := by rfl

theorem test_decode_rdver : decode [0b1001_01_00] = .ok (.rdver .u1) := by rfl

theorem test_decode_rdbits : decode [0b1010_10_00] = .ok (.rdbits .u2) := by rfl

theorem test_decode_rndbits : decode [0b1011_00_00, 0xFF] = .ok (.rndbits 255) := by rfl

theorem test_decode_fmt : decode [0b1100_00_00, 4, 16, 0x80, 0, 0, 0, 0, 0, 0, 0xFF] = .ok (.fmt 0x80000000000000FF 4 16) := by rfl

/-! ## Rejections, with the examples of 60_exceptions.md R133 -/

theorem test_reject_empty : decode [] = .error (.badLength 0) := by rfl

theorem test_reject_opcode0 : decode [0x00] = .error (.illegalOpcode 0x00) := by rfl

theorem test_reject_opcodeF : decode [0xF0, 0, 0] = .error (.illegalOpcode 0xF0) := by rfl

theorem test_reject_length_before_reserved : decode [0x61, 0x00] = .error (.badLength 2) := by rfl

theorem test_reject_reserved_rb : decode [0x61] = .error (.reservedField 0x61) := by rfl

theorem test_reject_reserved_idx7 : decode [0x88, 0x07] = .error (.reservedField 0x07) := by rfl

theorem test_reject_reserved_ra_of_rndbits : decode [0xB4, 0x05] = .error (.reservedField 0xB4) := by rfl

theorem test_reject_reserved_rep3 : decode [0x80, 0b000_11_000] = .error (.reservedField 0x18) := by rfl

theorem test_reject_reserved_mask : decode [0x10, 0x40] = .error (.reservedField 0x40) := by rfl

theorem test_reject_init_short : decode [0x10] = .error (.badLength 1) := by rfl

theorem test_reject_parse_short : decode [0x54, 0x03, 0x61, 0x62] = .error (.badLength 4) := by rfl

/-! ## Each command, one step (spec/95_test_vectors.md) -/

/-- V-VAL 3: every operand over-wide. -/
theorem test_init_masks :
    (port0 (after (st none V1State.reset [] []) [0x10, 0x3F, 0xFF, 0xFF, 0xFF, 0xFF, 0xFF, 0xFF, 0xFF, 0xFF, 0, 0, 0, 0, 0, 0x01, 0xFF, 0xFF,
      0, 0, 0, 0, 0, 0x0A, 0xBC, 0xDE, 0, 0, 0, 0, 0, 0, 0x01, 0xFF, 0, 0, 0, 0, 0, 0, 0x01, 0x00,
      0xFF, 0xFF, 0, 0, 0, 0, 0, 0x01])).u0 = some ⟨0xFFFFFFFF, 0xFFFF, 0xBCDE, 0xFF, 0x00, 0x000000000001⟩ := by decide

/-- V-VAL 6: `CLR` discards what the register held. -/
theorem test_init_clear :
    (port0 (after (st (some uT1) V1State.reset [] []) [0x10, 0x00])).u0 = some ⟨0, 0, 0, 0, 0, 0⟩ := by decide

/-- V-G4-3. -/
theorem test_genv4_draws :
    (port0 (after (st none V1State.reset [0x12345678, 0x2, 0xABCD, 0x123, 0x15, 0x7E, 0x3FFFFFFF, 0x1] []) [0x20])).u0
      = some ⟨0x92345678, 0xABCD, 0x4123, 0x95, 0x7E, 0x00007FFFFFFF⟩ := by decide

/-- 42_gen_v4.md R100. -/
theorem test_genv4_takes_eight_draws :
    (after (st none V1State.reset [0, 0, 0, 0, 0, 0, 0, 0, 0x2A] []) [0x20]).env.draws = [0x2A] := by decide

/-- 43_gen_v1.md R110, example. -/
theorem test_genv1_advance :
    (port0 (after (st none (v1Of 0 0 0x2ABC 0x000040000003) [] [1700000000000]) [0x30])).u0
      = some ⟨0x04AFC000, 0x833B, 0x11EE, 0xAA, 0xBC, 0x000040000003⟩ := by decide

/-- V-G1-C: TICK takes `tick` to 9999, and its carry out of the low 32 bits is lost. -/
theorem test_genv1_carry_lost :
    (port0 (after (st none (v1Of 1700000421634 9998 0 1) [0] [1700000421634]) [0x30])).u0
      = some ⟨0x0000252F, 0x833B, 0x11EE, 0x80, 0x00, 0x000000000001⟩ := by decide

/-- 43_gen_v1.md R106, example. -/
theorem test_v1init_creates :
    (after (st none V1State.reset [0x2ABC, 0x2, 0x1] []) [0x40]).v1 = v1Of 0 0 0x2ABC 0x000040000003 := by decide

/-- 43_gen_v1.md R106: a second `V1INIT` changes nothing and takes no draw. -/
theorem test_v1init_once :
    (after (st none (v1Of 5 1 1 1) [7] []) [0x40]).v1 = v1Of 5 1 1 1 ∧ (after (st none (v1Of 5 1 1 1) [7] []) [0x40]).env.draws = [7] := by decide

/-- T1. -/
theorem test_parse_text :
    (port0 (after (st none V1State.reset [] []) (0x50 :: 0x24 :: textT1))).u0 = some uT1 := by decide

/-- T2: `"not-a-uuid"` leaves the register absent, status `ABSENT`, no fault. -/
theorem test_parse_absent :
    let t := after (st (some uT1) V1State.reset [] []) [0x50, 0x0A, 0x6E, 0x6F, 0x74, 0x2D, 0x61, 0x2D, 0x75, 0x75, 0x69, 0x64]
    (port0 t).u0 = none ∧ resp t = [0x01] ∧ (port0 t).fault = 0x00 := by decide

/-- T1. -/
theorem test_tostr :
    resp (after (st (some uT1) V1State.reset [] []) [0x60]) = 0x00 :: textT1 := by decide

/-- T2 row 4. -/
theorem test_tostr_absent :
    resp (after (st none V1State.reset [] []) [0x64]) = [0x84] ∧ (port0 (after (st none V1State.reset [] []) [0x64])).fault = 0x84 := by decide

/-- V-VAL 10. -/
theorem test_eq_self :
    resp (after (st (some uT1) V1State.reset [] []) [0x70]) = [0x00, 0x01] := by decide

/-- V-VAL 11 and 12: only the subject may not be absent. -/
theorem test_eq_absent_second :
    resp (after (st (some uT1) V1State.reset [] []) [0x71]) = [0x00, 0x00] ∧ resp (after (st (some uT1) V1State.reset [] []) [0x74]) = [0x84] := by decide

/-- T1 row 7. -/
theorem test_rdf_int :
    resp (after (st (some uT1) V1State.reset [] []) [0x80, 0x05]) = [0x00, 0x00, 0x00, 0x12, 0x34, 0x56, 0x78, 0x90, 0x12] := by decide

/-- T1, derived additions. -/
theorem test_rdf_strings :
    resp (after (st (some uT1) V1State.reset [] []) [0x80, 0x0B]) = [0x00, 0x31, 0x30, 0x30, 0x31, 0x31, 0x30, 0x31, 0x30]
    ∧ resp (after (st (some uT1) V1State.reset [] []) [0x80, 0x12]) = [0x00, 0x35, 0x36, 0x37, 0x38] := by decide

/-- T1 row 8. -/
theorem test_rdver :
    resp (after (st (some uT1) V1State.reset [] []) [0x90]) = [0x00, 0x05] := by decide

/-- 41_value_type.md R92, example. -/
theorem test_rdbits :
    resp (after (st (some ⟨1, 0, 0, 0, 0, 1⟩) V1State.reset [] []) [0xA0])
      = 0x00 :: (List.replicate 31 0x30 ++ [0x31] ++ List.replicate 95 0x30 ++ [0x31]) := by decide

/-- V-RND-6. -/
theorem test_rndbits_two_draws :
    resp (after (st none V1State.reset [0x12345678, 0x3FF] []) [0xB0, 0x28])
      = [0x00, 0x00, 0x00, 0x00, 0xFF, 0xD2, 0x34, 0x56, 0x78] := by decide

/-- V-RND-11: no draw taken. -/
theorem test_rndbits_range :
    let t := after (st none V1State.reset [7] []) [0xB0, 0x36]
    resp t = [0x85] ∧ t.env.draws = [7] ∧ (port0 t).fault = 0x85 := by decide

/-- V-FMT-3 and V-FMT-9. -/
theorem test_fmt :
    resp (after (st none V1State.reset [] []) [0xC0, 0x02, 0x24, 0, 0, 0, 0, 0, 0, 0, 0x23]) = [0x00, 0x30, 0x7A]
    ∧ resp (after (st none V1State.reset [] []) [0xC0, 0x0D, 0x24, 0xFF, 0xFF, 0xFF, 0xFF, 0xFF, 0xFF, 0xFF, 0xFF])
      = [0x00, 0x33, 0x77, 0x35, 0x65, 0x31, 0x31, 0x32, 0x36, 0x34, 0x73, 0x67, 0x73, 0x66] := by decide

/-- V-FMT-12, V-FMT-13, V-FMT-16, V-FMT-20. -/
theorem test_fmt_faults :
    resp (after (st none V1State.reset [] []) [0xC0, 0x02, 0x10, 0, 0, 0, 0, 0, 0, 0x01, 0x00]) = [0x87]
    ∧ resp (after (st none V1State.reset [] []) [0xC0, 0x00, 0x10, 0, 0, 0, 0, 0, 0, 0, 0]) = [0x87]
    ∧ resp (after (st none V1State.reset [] []) [0xC0, 0x81, 0x02, 0, 0, 0, 0, 0, 0, 0, 0x01]) = [0x87]
    ∧ resp (after (st none V1State.reset [] []) [0xC0, 0xFF, 0x01, 0, 0, 0, 0, 0, 0, 0, 0]) = [0x86] := by decide

/-! ## The host's table words -/

/-- The table gives `GENV4` 8 bits. -/
theorem test_tableWord_genv4 :
    decodeTableWord 8 0x28 = some (.genv4 .u2) := by decide

/-- `INIT` with mask 0x01: the operand bytes the table does not give are zeros. -/
theorem test_tableWord_init :
    decodeTableWord 16 0x0110 = some (.init .u0 ⟨some 0, none, none, none, none, none⟩) := by decide

/-- The placed word is what the very next step runs. -/
theorem test_withFetchWord_runs :
    ∃ t, step (State.reset.withFetchWord 8 0x68) = .next t ∧ resp t = [0x84] := by exact ⟨_, rfl, by decide⟩

/-! ## Witnesses: for each obligation with hypotheses, states and operands that meet them all together -/

/-- A present register `U0` and an absent `U1`, no `V1`. -/
def sU : State := st (some uT1) V1State.reset [] []

/-- The context of the issuing port of `sU`. -/
def pU : Port := { Port.reset with u0 := some uT1 }

theorem issuer_sU : sU.issuer = some pU := by rfl

/-- `V1` exists, stored time 1000, `tick` one below its bound; the next draw hits the coin; the clock is `now`. -/
def sV (now : BitVec 48) (draw : BitVec 30) (tick : BitVec 14) : State :=
  st none (v1Of 1000 tick 0x3FFF 1) [draw] [now]

theorem issuer_sV (now : BitVec 48) (draw : BitVec 30) (tick : BitVec 14) : (sV now draw tick).issuer = some Port.reset := by
  rfl

theorem witness_DecodeOfEncodeIsTheCommand : (Instr.parse .u3 (List.replicate 255 0x61)).wellFormed = true :=
  test_wellFormed_text_255

theorem witness_EveryCommandHasExactlyOnePacket :
    (Instr.parse .u3 (List.replicate 255 0x61)).wellFormed = true ∧ decode [0x28] = .ok (.genv4 .u2)
    ∧ (some 0 : Option Word64).getD 0 = (none : Option Word64).getD 0 :=
  ⟨test_wellFormed_text_255, rfl, rfl⟩

theorem witness_DecoderChecksOpcodeThenLengthThenReserved :
    ((0x0F : Byte).toNat / 16 = 0 ∧ 13 ≤ (0xD0 : Byte).toNat / 16)
    ∧ ((0x10 : Byte).toNat / 16 = 1 ∧ lengthByTable 1 ([] : List Byte).head? ≠ some (0 + 1))
    ∧ ((0xCF : Byte).toNat / 16 = 12 ∧ lengthByTable 12 (some 0) ≠ some (9 + 1))
    ∧ (lengthByTable 1 ([0x40] : List Byte).head? = some (1 + 1) ∧ ReservedByTable 1 0x10 (([0x40] : List Byte).headD 0))
    ∧ (lengthByTable 7 ([] : List Byte).head? = some (0 + 1) ∧ ¬ ReservedByTable 7 0x7F (([] : List Byte).headD 0))
    ∧ (lengthByTable 8 ([0x15] : List Byte).head? = some (1 + 1)
        ∧ ¬ ReservedByTable 8 0x8C (([0x15] : List Byte).headD 0)) := by
  unfold ReservedByTable
  decide

theorem witness_DigitsAreTheShortestDigitString :
    (35 < 36 ∧ 36 ≤ 36) ∧ ([0x30, 0x7A] : Text) ≠ [] ∧ (∀ c ∈ ([0x30, 0x7A] : Text), IsDigitOf 36 c)
    ∧ denoted 36 [0x30, 0x7A] = 35 := by
  unfold IsDigitOf
  decide

theorem witness_AlignNumberHasItsLengthAndItsValue :
    2 ≤ 16 ∧ 16 ≤ 36 ∧ (digits 255 16).length ≤ 2 ∧ (digits 0 2).length ≤ 1 := by
  decide

theorem witness_RandomBitsComposesItsDraws : (0 ≤ 30 ∧ 0 < 2 ^ 0) ∧ (30 < 31 ∧ 2 ^ 53 - 1 < 2 ^ 53 ∧ 53 ≤ 53) := by
  decide

theorem witness_RndbitsAnswersARandomInteger :
    sU.issuer = some pU ∧ (53 : Byte).toNat ≤ 53 ∧ 30 < (31 : Byte).toNat ∧ (30 : Byte).toNat ≤ 30
    ∧ (0 : Byte).toNat = 0 :=
  ⟨rfl, by decide, by decide, by decide, rfl⟩

theorem witness_RndbitsAboveItsRangeFaults : sU.issuer = some pU ∧ 53 < (54 : Byte).toNat := ⟨rfl, by decide⟩

theorem witness_FmtAnswersThePaddedDigits :
    sU.issuer = some pU
    ∧ (2 ≤ (2 : Byte).toNat ∧ (128 : Byte).toNat ≤ 128
        ∧ (0xFFFFFFFFFFFFFFFF : Word64).toNat < (2 : Byte).toNat ^ (128 : Byte).toNat)
    ∧ ((36 : Byte).toNat ≤ 36 ∧ 1 ≤ (1 : Byte).toNat ∧ (35 : Word64).toNat < (36 : Byte).toNat ^ (1 : Byte).toNat) :=
  ⟨rfl, by decide, by decide⟩

theorem witness_FmtOutsideItsDomainFaults :
    sU.issuer = some pU ∧ ((1 : Byte).toNat < 2 ∧ 36 < (37 : Byte).toNat)
    ∧ (2 ≤ (16 : Byte).toNat ∧ (16 : Byte).toNat ≤ 36
        ∧ 128 < (129 : Byte).toNat ∧ (0 : Byte).toNat = 0
        ∧ (16 : Byte).toNat ^ (2 : Byte).toNat ≤ (256 : Word64).toNat) :=
  ⟨rfl, by decide, by decide⟩

theorem witness_ConstructedValuesBehave : ∃ i, fieldInt uT1 i ≠ fieldInt { uT1 with clockSeqLow := 0xBD } i :=
  ⟨.clockSeqLow, by decide⟩

theorem witness_BitStringShowsEveryBitInFieldOrder : 0 < 128 ∧ 127 < 128 := by decide

theorem witness_StringsAreTheDigitsOfThe128BitInteger : 2 ^ 128 - 1 < 2 ^ 128 := by decide

theorem witness_EqualityComparesTheSixIntegers : equals uT1 uT1 = true := by decide

theorem witness_InitWritesItsMaskedOperands : sU.issuer = some pU := issuer_sU

theorem witness_ReadCommandsAnswerAPresentSubject :
    sU.issuer = some pU ∧ pU.getU .u0 = some uT1
    ∧ (intResult (fieldInt uT1 .node)).length = 8 ∧ (be64 (intResult (fieldInt uT1 .node))).toNat = fieldInt uT1 .node :=
  ⟨rfl, rfl, rfl, by decide⟩

theorem witness_EqAnswersFieldwiseEquality : sU.issuer = some pU ∧ pU.getU .u0 = some uT1 := ⟨rfl, rfl⟩

theorem witness_AbsentSubjectFaults : sU.issuer = some pU ∧ pU.getU .u1 = none := ⟨rfl, rfl⟩

theorem witness_OnlyConstructingCommandsWriteRegisters :
    sU.issuer = some pU ∧ (∃ t, exec (.parse .u0 []) sU = .next t ∧ (port0 t).getU .u0 = none)
    ∧ destOf (.parse .u0 []) = some .u0 ∧ destOf (.parse .u0 []) ≠ some .u1 :=
  ⟨rfl, ⟨_, rfl, rfl⟩, rfl, by decide⟩

theorem witness_Genv4WritesAVersion4Uuid : sU.issuer = some pU := issuer_sU

theorem witness_V1initCreatesTheGeneratorStateOnce :
    (sU.issuer = some pU ∧ sU.v1.inited = false)
    ∧ ((sV 1000 0 9998).issuer = some Port.reset ∧ (sV 1000 0 9998).v1.inited = true) :=
  ⟨⟨rfl, rfl⟩, rfl, rfl⟩

theorem witness_TimeFieldsSplitThe60BitCount :
    103072857660684 < 2 ^ 48 ∧ 103072857660684 ≤ 103072857660684 ∧ 103072857660684 < 103072857660685
    ∧ 103072857660685 < 2 ^ 48 ∧ 2 ^ 48 - 1 < 2 ^ 48 := by
  decide

theorem witness_ClockArbiterHasFourCases_advance :
    (sV 1001 0 9998).v1.inited = true ∧ (sV 1001 0 9998).v1.timestamp.toNat < (sV 1001 0 9998).sample.toNat
    ∧ ∃ t, exec (.genv1 .u0) (sV 1001 0 9998) = .next t :=
  ⟨rfl, by decide, _, rfl⟩

theorem witness_ClockArbiterHasFourCases_regress :
    (sV 999 0 9998).v1.inited = true ∧ (sV 999 0 9998).sample.toNat < (sV 999 0 9998).v1.timestamp.toNat
    ∧ ∃ t, exec (.genv1 .u0) (sV 999 0 9998) = .next t :=
  ⟨rfl, by decide, _, rfl⟩

theorem witness_ClockArbiterHasFourCases_tick :
    (sV 1000 0 9998).v1.inited = true ∧ (sV 1000 0 9998).sample = (sV 1000 0 9998).v1.timestamp
    ∧ ((sV 1000 0 9998).env.drawAt 0).toNat % 8 = 0 ∧ (sV 1000 0 9998).v1.tick.toNat < 9999
    ∧ ∃ t, exec (.genv1 .u0) (sV 1000 0 9998) = .next t :=
  ⟨rfl, rfl, by decide, by decide, _, rfl⟩

theorem witness_ClockArbiterHasFourCases_seq :
    (sV 1000 0 9999).sample = (sV 1000 0 9999).v1.timestamp ∧ 9999 ≤ (sV 1000 0 9999).v1.tick.toNat
    ∧ (sV 1000 1 0).sample = (sV 1000 1 0).v1.timestamp ∧ ((sV 1000 1 0).env.drawAt 0).toNat % 8 ≠ 0
    ∧ ∃ t, exec (.genv1 .u0) (sV 1000 0 9999) = .next t :=
  ⟨rfl, by decide, rfl, by decide, _, rfl⟩

/-- An initialised `V1` with its invariant, at an unchanged clock, and a `V1` that is not initialised. -/
theorem witness_Genv1WritesAVersion1Uuid :
    ((sV 1000 0 9998).issuer = some Port.reset ∧ (sV 1000 0 9998).v1.inited = true ∧ (sV 1000 0 9998).v1.Inv)
    ∧ (sU.issuer = some pU ∧ sU.v1.inited = false) :=
  ⟨⟨rfl, rfl, fun _ => by decide⟩, rfl, rfl⟩

/-- Not initialised: a later sample, and a sample of 0 with each side of the coin. -/
theorem witness_FirstGenv1CreatesTheGeneratorState :
    (let s := st none V1State.reset [1, 2, 3, 8] [5]
     s.issuer = some Port.reset ∧ s.v1.inited = false ∧ s.sample.toNat ≠ 0 ∧ ∃ t, exec (.genv1 .u0) s = .next t)
    ∧ (let s := st none V1State.reset [1, 2, 3, 8] [0]
       s.issuer = some Port.reset ∧ s.v1.inited = false ∧ s.sample.toNat = 0 ∧ (s.env.drawAt 3).toNat % 8 = 0
         ∧ ∃ t, exec (.genv1 .u0) s = .next t)
    ∧ (let s := st none V1State.reset [1, 2, 3, 9] [0]
       s.issuer = some Port.reset ∧ s.v1.inited = false ∧ s.sample.toNat = 0 ∧ (s.env.drawAt 3).toNat % 8 ≠ 0
         ∧ ∃ t, exec (.genv1 .u0) s = .next t) :=
  ⟨⟨rfl, rfl, by decide, _, rfl⟩, ⟨rfl, rfl, rfl, by decide, _, rfl⟩, ⟨rfl, rfl, rfl, by decide, _, rfl⟩⟩

/-- Two samples, the second one earlier, of two `GENV1` commands one after the other; the sequence wraps. -/
theorem witness_RegressionAdvancesTheSequence :
    let s := st none (v1Of 1000 0 0x3FFF 1) [] [1001, 999]
    ∃ t q u t' q' u', s.issuer = some Port.reset ∧ exec (.genv1 .u0) s = .next t ∧ t.issuer = some q
      ∧ q.getU .u0 = some u ∧ exec (.genv1 .u1) t = .next t' ∧ t'.issuer = some q' ∧ q'.getU .u1 = some u'
      ∧ t.sample.toNat < s.sample.toNat :=
  ⟨_, _, _, _, _, _, rfl, rfl, rfl, rfl, rfl, rfl, rfl, by decide⟩

theorem witness_HexIntSumsItsDigitsByPlace :
    ([0x30, 0x61, 0x46] : Text) ≠ [] ∧ ∀ c ∈ ([0x30, 0x61, 0x46] : Text), IsLowerHex c ∨ IsUpperHex c := by
  unfold IsLowerHex IsUpperHex
  decide

theorem witness_ParsingInvertsPrinting : parseText textT1 = some uT1 := by decide

theorem witness_ParseWritesItsResultPresentOrAbsent :
    sU.issuer = some pU ∧ parseText textT1 = some uT1 ∧ parseText [] = none :=
  ⟨rfl, witness_ParsingInvertsPrinting, rfl⟩

/-- `TOSTR U1` waits on a port whose `U1` is absent. -/
def sFault : State := sU.placeCommand [0x64]

theorem witness_FaultingCommandsArePrecise :
    ∃ s1 t q, sFault.resetReq = false ∧ sFault.fetch = some ([0x64], s1) ∧ s1.issuer = some pU
      ∧ step sFault = .next t ∧ t.issuer = some q ∧ q.responses = pU.responses ++ [0x84 :: []]
      ∧ (0x84 : Byte).msb = true :=
  ⟨_, _, _, rfl, rfl, rfl, rfl, rfl, rfl, rfl⟩

theorem witness_UndecodablePacketsFault :
    (∃ s1, (sU.placeCommand []).fetch = some ([], s1) ∧ s1.issuer = some pU ∧ decode [] = .error (.badLength 0))
    ∧ (∃ s1, (sU.placeCommand [0x00]).fetch = some ([0x00], s1) ∧ decode [0x00] = .error (.illegalOpcode 0x00))
    ∧ ∃ s1, (sU.placeCommand [0x61]).fetch = some ([0x61], s1) ∧ decode [0x61] = .error (.reservedField 0x61) :=
  ⟨⟨_, rfl, rfl, rfl⟩, ⟨_, rfl, rfl⟩, _, rfl, rfl⟩

theorem witness_EveryCommandAnswersOnce :
    sU.issuer = some pU ∧ (∃ t, exec (.eq .u0 .u0) sU = .next t) ∧ (∃ t, exec (.rdver .u0) sU = .next t)
    ∧ ∃ t, exec (.parse .u0 []) sU = .next t :=
  ⟨rfl, ⟨_, rfl⟩, ⟨_, rfl⟩, _, rfl⟩

/-- A port whose `FAULT` is set, and one whose `FAULT` is 0x00 and gets set. -/
theorem witness_FaultRegisterIsSticky :
    (∃ t d, sFault.resetReq = false ∧ step sFault = .next t ∧ sFault.ports[0]? = some { pU with queue := [[0x64]] }
      ∧ t.ports[0]? = some d ∧ d.fault = 0x84)
    ∧ ∃ t d, step (({ sU with ports := [{ pU with fault := 0x81 }] } : State).placeCommand [0x64]) = .next t
      ∧ t.ports[0]? = some d ∧ d.fault = 0x81 :=
  ⟨⟨_, _, rfl, rfl, rfl, rfl, rfl⟩, _, _, rfl, rfl, rfl⟩

theorem witness_StepRunsTheDecodedCommand :
    (∃ s1, sFault.resetReq = false ∧ sFault.fetch = some ([0x64], s1) ∧ decode [0x64] = .ok (.tostr .u1))
    ∧ (∃ s1, (sU.placeCommand [0x00]).fetch = some ([0x00], s1) ∧ decode [0x00] = .error (.illegalOpcode 0x00))
    ∧ sU.pending = 0 :=
  ⟨⟨_, rfl, rfl, rfl⟩, ⟨_, rfl, rfl⟩, rfl⟩

theorem witness_EveryStepAnswersANextState : sU.issuer = some pU := issuer_sU

/-- Two ports, both waiting. -/
def sTwo : State :=
  { State.resetWith 2 with ports := [{ Port.reset with queue := [[0x64]] }, { Port.reset with queue := [[0x28]] }] }

theorem witness_ArbiterMayServeAnyWaitingPort :
    sTwo.ports[1]? = some { Port.reset with queue := [[0x28]] }
    ∧ ({ Port.reset with queue := [[0x28]] } : Port).queue = [0x28] :: [] :=
  ⟨rfl, rfl⟩

theorem witness_EveryWaitingCommandIsAnswered :
    sTwo.resetReq = false ∧ sTwo.pending = 2 ∧ sTwo.ports[0]? = some { Port.reset with queue := [[0x64]] } :=
  ⟨rfl, rfl, rfl⟩

/-- The invariant of a state with an initialised `V1`, a present register and a recorded fault. -/
theorem witness_EveryStepKeepsTheInvariant :
    let s := { sV 1000 0 9998 with ports := [{ pU with fault := 0x87 }] }.placeCommand [0x30]
    s.Inv ∧ ∃ t, step s = .next t := by
  refine ⟨⟨by decide, ?_, ?_⟩, _, rfl⟩
  · intro c hc
    rw [List.mem_singleton.mp hc]
    exact ⟨.inr (by decide), fun r u _ i => by cases i <;> exact BitVec.isLt _⟩
  · exact fun _ => by decide

theorem witness_ResetHasTheInvariant : 1 ≤ 1 := by decide

theorem witness_ResetStateAndItsUnobservableParts :
    sU.issuer = some pU ∧ sU.v1.inited = false ∧ ({ v1Of 7 7 7 7 with inited := false } : V1State).inited = false
    ∧ (∃ t, exec .v1init sU = .next t ∧ t.v1.inited = true) ∧ Port.reset ∈ (State.resetWith 1).ports :=
  ⟨rfl, rfl, rfl, ⟨_, rfl, rfl⟩, by decide⟩

theorem witness_ResetInputResetsTheBlock :
    ({ sTwo with resetReq := true } : State).resetReq = true
    ∧ ({ sTwo with resetReq := true } : State).ports[1]? = some { Port.reset with queue := [[0x28]] } :=
  ⟨rfl, rfl⟩

theorem witness_GeneratorStateLivesUntilReset :
    (∃ t, (sV 999 0 1).resetReq = false ∧ (sV 999 0 1).v1.inited = true
      ∧ step ((sV 999 0 1).placeCommand [0x30]) = .next t)
    ∧ (∃ t, exec .v1init (sV 999 0 1) = .next t) ∧ ∀ d, Instr.v1init ≠ .genv1 d :=
  ⟨⟨_, rfl, rfl, rfl⟩, ⟨_, rfl⟩, by simp⟩

theorem witness_OnlyGeneratorCommandsTouchSharedState :
    (∃ t, exec (.tostr .u0) sU = .next t) ∧ (∃ t, exec (.genv4 .u0) sU = .next t)
    ∧ Instr.tostr .u0 ≠ .v1init ∧ (∀ d, Instr.tostr .u0 ≠ .genv1 d) ∧ (∀ d, Instr.tostr .u0 ≠ .genv4 d)
    ∧ (∀ w, Instr.tostr .u0 ≠ .rndbits w) ∧ 1 ≠ sU.cur :=
  ⟨⟨_, rfl⟩, ⟨_, rfl⟩, by simp, by simp, by simp, by simp, by decide⟩

/-- Two states that agree on the issuing port and differ on the other one. -/
theorem witness_PortsAreIsolated :
    let s : State := { sTwo with ports := [pU, Port.reset] }
    let s' : State := { sTwo with ports := [pU, { pU with fault := 0x81 }] }
    s.issuer = some pU ∧ s'.issuer = some pU ∧ s.v1 = s'.v1 ∧ s.env = s'.env ∧ s ≠ s' :=
  ⟨rfl, rfl, rfl, rfl, by decide⟩

theorem witness_FaultRegisterIsUnreadable : sU.issuer = some pU ∧ ∃ t, exec (.tostr .u0) sU = .next t := ⟨rfl, _, rfl⟩

theorem witness_RepeatingAReadGivesTheSameResponse :
    (∃ t q t' q', sU.issuer = some pU ∧ exec (.tostr .u0) sU = .next t ∧ t.issuer = some q
      ∧ exec (.tostr .u0) t = .next t' ∧ t'.issuer = some q' ∧ isRead (.tostr .u0) = true)
    ∧ ∃ t q t' q', exec .v1init sU = .next t ∧ t.issuer = some q ∧ exec .v1init t = .next t' ∧ t'.issuer = some q' :=
  ⟨⟨_, _, _, _, rfl, rfl, rfl, rfl, rfl, rfl⟩, _, _, _, _, rfl, rfl, rfl, rfl⟩

/-- The state after the step that executes the command waiting in `sFault`. -/
def sFaulted : State := { sU with ports := [{ pU with fault := 0x84, responses := [[0x84]] }] }

/-- The command of `sFault` is executed, and then nothing waits. -/
def runFault : Nat → State
  | 0     => sFault
  | _ + 1 => sFaulted

theorem runFault_advances : ∀ k, Advances runFault k
  | 0     => ⟨rfl, sFaulted, rfl, Inputs.refl _⟩
  | _ + 1 => ⟨rfl, sFaulted, rfl, Inputs.refl _⟩

/-- A run with a command waiting. -/
theorem witness_EverySentCommandIsEventuallyExecuted :
    Run runFault ∧ (runFault 0).ports[0]? = some { pU with queue := [[0x64]] } := by
  refine ⟨⟨runFault_advances, fun n k h => ?_⟩, rfl⟩
  cases n <;> cases h (k + 1) (Nat.le_succ k)

/-- One step taken, after which every host sends `GENV4 U2` at every step. -/
theorem witness_FairnessRestrictsNoFiniteSchedule :
    (∀ k, k < 1 → Advances runFault k) ∧ (runFault 1).resetReq = false
    ∧ (fun _ _ => [[0x28]] : Nat → Nat → List Packet) 1 0 = [[0x28]] :=
  ⟨fun k _ => runFault_advances k, rfl, rfl⟩

end Sys2Proof.Tests
end

section
/-! PROOF. What one step is (00_scope.md R8): put together from what the hand-over of a packet does and from the
shapes of a step. -/

namespace Sys2Proof.Machine

/-- The packet handed over is the oldest of the port it comes from, and the hand-over changes nothing but that port's
queue, the issuing port and at most one arbiter choice. -/
theorem State.fetch_frame {s s1 : State} {pkt : Packet} (h : s.fetch = some (pkt, s1)) :
    ∃ c rest, s.ports[s1.cur]? = some c ∧ c.queue = pkt :: rest
      ∧ s1.ports = s.ports.set s1.cur { c with queue := rest } ∧ s1.v1 = s.v1 ∧ s1.resetReq = s.resetReq
      ∧ s1.env.draws = s.env.draws ∧ s1.env.drawn = s.env.drawn ∧ s1.env.clocks = s.env.clocks
      ∧ s1.env.sampled = s.env.sampled ∧ (s1.env = s.env ∨ s1.env = s.env.pick.2) := by
  obtain ⟨c, rest, hc, hq, -, hp, hv, hrr⟩ := State.fetch_issuer h
  exact ⟨c, rest, hc, hq, hp, hv, hrr, State.fetch_env h⟩

/-- Settles O40: with a packet handed over, by the frame of the hand-over and the executing and faulting shapes of a
step; with no command waiting, by the idle shape. -/
theorem stepRunsTheDecodedCommand : Obligations.StepRunsTheDecodedCommand := by
  intro s hr
  refine ⟨fun pkt s1 hf => ⟨State.fetch_frame hf, ?decodes, ?faults⟩, s.pending_eq_zero.symm, ?idle⟩
  case decodes => exact fun i hd => step_exec hr hf hd
  case faults => exact fun f hd => step_raise hr hf hd
  case idle => exact fun hp => step_idle hr (s.pending_eq_zero.mp hp)

end Sys2Proof.Machine
end

section
/-! PROOF. What one step does to `V1` and to a port's `FAULT`, and what follows from it: the state invariant
(10_state.md R26) at reset and after every step, the sticky `FAULT` (R15), the life of the generator state (R16, R19,
R27). -/

namespace Sys2Proof.Machine

/-! ## `V1` across a step -/

/-- A step without reset keeps the invariant of `V1`; once created, `V1` keeps existing and keeps its node. -/
theorem step_v1 {s t : State} (hr : s.resetReq = false) (ht : step s = .next t) :
    (s.v1.Inv → t.v1.Inv) ∧ (s.v1.inited = true → t.v1.inited = true ∧ t.v1.node = s.v1.node) := by
  cases hf : s.fetch with
  | none =>
    rw [step_idle hr hf] at ht
    cases ht
    exact ⟨id, fun h => ⟨h, rfl⟩⟩
  | some x =>
    obtain ⟨pkt, s1⟩ := x
    obtain ⟨c, rest, -, -, hi, -, hv, -⟩ := State.fetch_issuer hf
    rw [← hv]
    rcases step_cases hr hf hi ht with ⟨f, rfl⟩ | ⟨i, v, e, w, st, pl, -, rfl, ef⟩
    · exact ⟨id, fun h => ⟨h, rfl⟩⟩
    · exact ⟨ef.v1inv, ef.inited⟩

/-! ## `FAULT` across a step -/

/-- A fault never clears `FAULT` or puts another value in its place. -/
@[simp] theorem stickyFault_of_ne {old : Byte} (h : old ≠ 0x00) (status : Byte) : stickyFault old status = old := by
  rw [stickyFault, if_neg h]

@[simp] theorem stickyFault_zero (status : Byte) : stickyFault 0x00 status = status := by
  rw [stickyFault, if_pos rfl]

/-- The issuing port of an executed packet: its `FAULT` is as it was, or it takes a fault and answers its status. -/
theorem step_issuer_fault {s s1 t : State} {pkt : Packet} {c : Port} (hr : s.resetReq = false)
    (hf : s.fetch = some (pkt, s1)) (ht : step s = .next t) (hc : s.ports[s1.cur]? = some c) :
    ∃ q, t.ports = s.ports.set s1.cur q
      ∧ (q.fault = c.fault
        ∨ ∃ f, q.fault = stickyFault c.fault (statusOfFault f) ∧ q.responses = c.responses ++ [[statusOfFault f]]) := by
  obtain ⟨c', rest, hc', -, hi, hp, -, -⟩ := State.fetch_issuer hf
  rw [hc] at hc'
  cases hc'
  rcases step_cases hr hf hi ht with ⟨f, rfl⟩ | ⟨i, v, e, w, st, pl, -, rfl, ef⟩
  · exact ⟨_, by rw [State.setIssuer_ports, hp, List.set_set], .inr ⟨f, rfl, rfl⟩⟩
  · obtain ⟨-, -, hfault⟩ := ef.port
    exact ⟨w.reply st pl, by simp only [State.setIssuer_ports, hp, List.set_set], .inl hfault⟩

/-- What a step without reset does to a port's `FAULT`: nothing, or the port takes a fault and answers its status. -/
theorem step_fault {s t : State} {n : Nat} {c d : Port} (hr : s.resetReq = false) (ht : step s = .next t)
    (hc : s.ports[n]? = some c) (hd : t.ports[n]? = some d) :
    d.fault = c.fault
    ∨ ∃ f, d.fault = stickyFault c.fault (statusOfFault f) ∧ d.responses = c.responses ++ [[statusOfFault f]] := by
  rcases step_port hr ht hc with ⟨-, hsame⟩ | ⟨hserved, -⟩
  · rw [hsame] at hd
    cases hd
    exact .inl rfl
  · obtain ⟨pkt, s1, hf, rfl⟩ := hserved.fetch
    obtain ⟨q, hq, h⟩ := step_issuer_fault hr hf ht hc
    rw [hq, List.getElem?_set_self (List.getElem?_eq_some_iff.mp hc).1] at hd
    cases hd
    exact h

theorem legalFault_zero : LegalFault 0x00 := .inl rfl

theorem legalFault_status (f : CmdFault) : LegalFault (statusOfFault f) := .inr (statusOfFault_range f)

theorem legalFault_sticky {b : Byte} (h : LegalFault b) (f : CmdFault) :
    LegalFault (stickyFault b (statusOfFault f)) := by
  by_cases h0 : b = 0x00
  · rw [h0, stickyFault_zero]
    exact legalFault_status f
  · rwa [stickyFault_of_ne h0]

/-! ## The invariant -/

/-- A UUID value keeps each field within its width by its type, so `FAULT` is what a port's invariant is about. -/
theorem Port.inv_iff (c : Port) : c.Inv ↔ LegalFault c.fault :=
  ⟨fun h => h.1, fun h => ⟨h, fun _ u _ i => fieldInt_lt u i⟩⟩

theorem V1State.reset_inv : V1State.reset.Inv := fun h => by cases h

theorem State.resetWith_inv {n : Nat} (h : 1 ≤ n) : (State.resetWith n).Inv := by
  refine ⟨fun h0 => ?_, fun c hc => ?_, V1State.reset_inv⟩
  · rw [State.resetWith, List.replicate_eq_nil_iff] at h0
    omega
  · rw [List.eq_of_mem_replicate hc, Port.inv_iff]
    exact legalFault_zero

theorem State.takeReset_inv {s : State} (h : s.Inv) : s.takeReset.Inv := by
  obtain ⟨hne, -, -⟩ := h
  refine ⟨by simpa using hne, fun c hc => ?_, V1State.reset_inv⟩
  obtain ⟨p, -, rfl⟩ := List.mem_map.mp hc
  exact p.atReset.inv_iff.mpr legalFault_zero

/-- A port of the state after a step without reset has its invariant if all ports had it. -/
theorem step_port_inv {s t : State} {d : Port} (hr : s.resetReq = false) (ht : step s = .next t)
    (hs : ∀ c ∈ s.ports, c.Inv) (hd : d ∈ t.ports) : d.Inv := by
  obtain ⟨n, hn, rfl⟩ := List.getElem_of_mem hd
  have hlen := (step_length hr ht).1
  have hc := List.getElem?_eq_getElem (hlen ▸ hn)
  have hlegal := (Port.inv_iff _).mp (hs _ (List.mem_of_getElem? hc))
  rw [Port.inv_iff]
  rcases step_fault hr ht hc (List.getElem?_eq_getElem hn) with h | ⟨f, h, -⟩ <;> rw [h]
  · exact hlegal
  · exact legalFault_sticky hlegal f

/-- Settles O45: `FAULT` is 0x00 on every port and `V1` is not initialised. -/
theorem resetHasTheInvariant : Obligations.ResetHasTheInvariant :=
  ⟨State.resetWith_inv (Nat.le_refl 1), fun _ => State.resetWith_inv⟩

/-- Settles O44: a reset establishes the invariant; any other step keeps the number of ports, leaves each `FAULT` as it
was or takes a fault's status into it, and keeps the invariant of `V1`. -/
theorem everyStepKeepsTheInvariant : Obligations.EveryStepKeepsTheInvariant := by
  intro s t hs ht
  cases hr : s.resetReq with
  | true =>
    rw [step_reset hr] at ht
    cases ht
    exact State.takeReset_inv hs
  | false =>
    obtain ⟨hne, hports, hv1⟩ := hs
    refine ⟨?_, fun d hd => step_port_inv hr ht hports hd, (step_v1 hr ht).1 hv1⟩
    rw [← List.length_pos_iff] at hne ⊢
    rwa [(step_length hr ht).1]

/-- Settles O39: by what a step does to `FAULT`, since only a fault taken with `FAULT` at 0x00 changes it. -/
theorem faultRegisterIsSticky : Obligations.FaultRegisterIsSticky := by
  intro s t n c d hr ht hc hd
  rcases step_fault hr ht hc hd with h | ⟨f, h, hresp⟩
  · exact ⟨fun _ => h, fun h0 h1 => absurd (h.trans h0) h1⟩
  · refine ⟨fun h0 => by rw [h, stickyFault_of_ne h0], fun h0 _ => ?_⟩
    have hf : d.fault = statusOfFault f := by rw [h, h0, stickyFault_zero]
    rw [hf]
    exact ⟨hresp, statusOfFault_range f⟩

/-! ## The life of the generator state -/

/-- A command other than `GENV1` leaves an existing `V1` as it is. -/
theorem exec_v1_of_inited {s t : State} {i : Instr} (hi : s.v1.inited = true) (ht : exec i s = .next t)
    (hg : ∀ d, i ≠ .genv1 d) : t.v1 = s.v1 := by
  obtain ⟨p, hp⟩ := issuer_of_exec_next ht
  rcases exec_cases hp i with ⟨f, hx, -⟩ | ⟨v, e, w, st, pl, hx, ef⟩ <;> rw [hx] at ht <;> cases ht
  · rfl
  · by_cases hv : i = .v1init
    · exact ef.v1init hv hi
    · exact ef.v1 fun h => h.elim hv fun ⟨d, hd⟩ => hg d hd

/-- Settles O48: the first clause by what a step does to `V1`, the second by the effect of the command. -/
theorem generatorStateLivesUntilReset : Obligations.GeneratorStateLivesUntilReset :=
  ⟨fun _ _ hr hi ht => (step_v1 hr ht).2 hi, fun _ _ _ => exec_v1_of_inited⟩

end Sys2Proof.Machine
end

section
/-! PROOF. What a command does depends on the issuing port's four registers, on `V1` once it exists and on the inputs,
and on nothing else: so the components of `V1` that reset leaves unspecified (10_state.md R25) and `FAULT` (R15) cannot
be observed through a command. -/

namespace Sys2Proof.Machine

/-! ## What a command does, apart from the state it does it to -/

/-- What a command does to a state: it takes a fault, or it answers, with a new `V1` (`none`: it keeps the one there
is), new inputs (`none` likewise), at most one register written, and a response. -/
inductive Action where
  | fault (f : CmdFault)
  | answer (v : Option V1State) (e : Option Env) (write : Option (UReg × Option UuidVal)) (st : Byte) (pl : List Byte)

/-- The register write of an action. -/
def Port.write (p : Port) : Option (UReg × Option UuidVal) → Port
  | none        => p
  | some (r, u) => p.setU r u

/-- The issuing port after an action. -/
def Action.port (p : Port) : Action → Port
  | .fault f            => p.takeFault f
  | .answer _ _ w st pl => (p.write w).reply st pl

/-- `V1` after an action. -/
def Action.v1 (v : V1State) : Action → V1State
  | .fault _           => v
  | .answer v' _ _ _ _ => v'.getD v

/-- The inputs after an action. -/
def Action.env (e : Env) : Action → Env
  | .fault _           => e
  | .answer _ e' _ _ _ => e'.getD e

/-- The state after an action of the issuing port, whose context was `p`. -/
def Action.apply (a : Action) (s : State) (p : Port) : State :=
  { s with v1 := a.v1 s.v1, env := a.env s.env }.setIssuer (a.port p)

@[simp] theorem Action.apply_v1 (a : Action) (s : State) (p : Port) : (a.apply s p).v1 = a.v1 s.v1 := rfl

@[simp] theorem Action.apply_env (a : Action) (s : State) (p : Port) : (a.apply s p).env = a.env s.env := rfl

theorem Action.apply_issuer {s : State} {p : Port} (h : s.issuer = some p) (a : Action) :
    (a.apply s p).issuer = some (a.port p) :=
  State.issuer_setIssuer (s := { s with v1 := a.v1 s.v1, env := a.env s.env }) h (a.port p)

/-- An action does not tell apart two ports with the same registers, waiting commands and responses. -/
theorem Action.port_congr {p p' : Port} (hr : SameRegs p p') (hq : p'.queue = p.queue)
    (hresp : p'.responses = p.responses) (a : Action) :
    (a.port p').responses = (a.port p).responses ∧ SameRegs (a.port p) (a.port p')
      ∧ (a.port p').queue = (a.port p).queue := by
  cases a with
  | fault f => exact ⟨by simp [Action.port, hresp], fun r => by simp [Action.port, hr r], hq⟩
  | answer v e w st pl =>
    cases w with
    | none => exact ⟨by simp [Action.port, Port.write, hresp], fun r => by simp [Action.port, Port.write, hr r], hq⟩
    | some x =>
      obtain ⟨d, u⟩ := x
      refine ⟨by simp [Action.port, Port.write, hresp], fun r => ?_, by simp [Action.port, Port.write, hq]⟩
      by_cases h : r = d
      · simp [Action.port, Port.write, h]
      · simp [Action.port, Port.write, Port.getU_setU_of_ne _ _ h, hr r]

/-- An action leaves `V1` as it was, or leaves the same `V1` whatever was there before. -/
theorem Action.v1_cases (a : Action) : (∀ v, a.v1 v = v) ∨ ∃ v', ∀ v, a.v1 v = v' := by
  cases a with
  | fault f => exact .inl fun _ => rfl
  | answer v e w st pl =>
    cases v with
    | none => exact .inl fun _ => rfl
    | some v' => exact .inr ⟨v', fun _ => rfl⟩

/-! ## States a command cannot tell apart -/

/-- The same generator state, or none created in either: then the other components stand for nothing. -/
def V1State.Alike (v v' : V1State) : Prop := v' = v ∨ (v.inited = false ∧ v'.inited = false)

/-- Two states that agree in all that a command of the issuing ports `p` and `p'` reads. -/
structure SeenAlike (s : State) (p : Port) (s' : State) (p' : Port) : Prop where
  issuer : s'.issuer = some p'
  regs   : SameRegs p p'
  v1     : s.v1.Alike s'.v1
  env    : s'.env = s.env

theorem SeenAlike.refl {s : State} {p : Port} (h : s.issuer = some p) : SeenAlike s p s p :=
  ⟨h, SameRegs.refl p, .inl rfl, rfl⟩

theorem v1Ready_alike {v v' : V1State} (h : v.Alike v') (e : Env) : v1Ready v' e = v1Ready v e := by
  rcases h with rfl | ⟨h, h'⟩
  · rfl
  · rw [v1Ready_not_inited h, v1Ready_not_inited h']

theorem genV1State_alike {v v' : V1State} (h : v.Alike v') (e : Env) : genV1State v' e = genV1State v e := by
  rw [genV1State_eq, genV1State_eq, v1Ready_alike h]

/-- The five commands with a subject register: an absent subject faults, for a present one it is enough to know the
answer. -/
theorem exec_action_of_subject {s : State} {p : Port} {i : Instr} (r : UReg)
    (hi : i = .tostr r ∨ (∃ b, i = .eq r b) ∨ (∃ f k, i = .rdf r f k) ∨ i = .rdver r ∨ i = .rdbits r)
    (hp : ∀ u, p.getU r = some u → ∃ pl, ∀ s' p', SeenAlike s p s' p' → p'.getU r = some u →
      exec i s' = .next (s'.setIssuer (p'.reply 0x00 pl))) :
    ∃ a : Action, ∀ s' p', SeenAlike s p s' p' → exec i s' = .next (a.apply s' p') := by
  cases hu : p.getU r with
  | none => exact ⟨.fault (.absentOperand r), fun s' p' h => exec_absent h.issuer ((h.regs r).trans hu) hi⟩
  | some u =>
    obtain ⟨pl, hx⟩ := hp u hu
    exact ⟨.answer none none none 0x00 pl, fun s' p' h => hx s' p' h ((h.regs r).trans hu)⟩

/-- A command does one and the same thing to all states it cannot tell apart. -/
theorem exec_action (s : State) (p : Port) (i : Instr) :
    ∃ a : Action, ∀ s' p', SeenAlike s p s' p' → exec i s' = .next (a.apply s' p') := by
  cases i with
  | init d args =>
    exact ⟨.answer none none (some (d, some (initValue args))) 0x00 [], fun s' p' h => exec_init h.issuer d args⟩
  | genv4 d =>
    refine ⟨.answer none (some (genV4 s.env).2) (some (d, some (genV4 s.env).1)) 0x00 [], fun s' p' h => ?_⟩
    rw [exec_genv4 h.issuer, h.env]
    rfl
  | genv1 d =>
    refine ⟨.answer (some (genV1State s.v1 s.env).1) (some (genV1State s.v1 s.env).2)
      (some (d, some (v1Uuid (genV1State s.v1 s.env).1))) 0x00 [], fun s' p' h => ?_⟩
    rw [exec_genv1 h.issuer, h.env, genV1State_alike h.v1]
    rfl
  | v1init =>
    refine ⟨.answer (some (v1Ready s.v1 s.env).1) (some (v1Ready s.v1 s.env).2) none 0x00 [], fun s' p' h => ?_⟩
    rw [exec_v1init h.issuer, h.env, v1Ready_alike h.v1]
    rfl
  | parse d text =>
    exact ⟨.answer none none (some (d, parseText text)) (parseStatus (parseText text)) [],
      fun s' p' h => exec_parse h.issuer d text⟩
  | tostr r => exact exec_action_of_subject r (by simp) fun u _ => ⟨_, fun s' p' h hu => exec_tostr h.issuer hu⟩
  | eq a b =>
    refine exec_action_of_subject a (by simp) fun u _ => ⟨[eqByte u (p.getU b)], fun s' p' h hu => ?_⟩
    rw [exec_eq h.issuer hu, h.regs b]
  | rdf r f k => exact exec_action_of_subject r (by simp) fun u _ => ⟨_, fun s' p' h hu => exec_rdf h.issuer hu f k⟩
  | rdver r => exact exec_action_of_subject r (by simp) fun u _ => ⟨_, fun s' p' h hu => exec_rdver h.issuer hu⟩
  | rdbits r => exact exec_action_of_subject r (by simp) fun u _ => ⟨_, fun s' p' h hu => exec_rdbits h.issuer hu⟩
  | rndbits w =>
    by_cases hw : w.toNat ≤ 53
    · refine ⟨.answer none (some (randomBits w.toNat s.env).2) none 0x00
        (intResult (randomBits w.toNat s.env).1), fun s' p' h => ?_⟩
      rw [exec_rndbits h.issuer hw, h.env]
      rfl
    · exact ⟨.fault (.widthRange w), fun s' p' h => exec_rndbits_range h.issuer (by omega)⟩
  | fmt v l r =>
    by_cases hr : r.toNat < 2 ∨ 36 < r.toNat
    · exact ⟨.fault (.radixRange r), fun s' p' h => exec_fmt_radix h.issuer hr⟩
    · by_cases ho : 128 < l.toNat ∨ l.toNat < (digits v.toNat r.toNat).length
      · exact ⟨.fault (.formatOverflow l), fun s' p' h => exec_fmt_overflow h.issuer (by omega) (by omega) ho⟩
      · exact ⟨.answer none none none 0x00 (alignNumber v.toNat l.toNat r.toNat),
          fun s' p' h => exec_fmt h.issuer (by omega) (by omega) (by omega) (by omega)⟩

/-! ## What cannot be observed -/

/-- A port of the reset state has its registers absent and `FAULT` at 0x00. -/
theorem resetWith_port {n : Nat} {c : Port} (hc : c ∈ (State.resetWith n).ports) :
    (∀ r, c.getU r = none) ∧ c.fault = 0x00 := by
  rw [List.eq_of_mem_replicate hc]
  exact ⟨fun r => by cases r <;> rfl, rfl⟩

/-- Two states in which `V1` does not exist yet, and which differ in the rest of `V1` only, are alike to a command. -/
theorem seenAlike_of_not_inited {s : State} {p : Port} {v : V1State} (h : s.issuer = some p)
    (hs : s.v1.inited = false) (hv : v.inited = false) : SeenAlike s p { s with v1 := v } p :=
  ⟨h, SameRegs.refl p, .inr ⟨hs, hv⟩, rfl⟩

/-- Two states that differ in the `FAULT` of the issuing port only are alike to a command. -/
theorem seenAlike_of_fault {s : State} {p : Port} (h : s.issuer = some p) (f : Byte) :
    SeenAlike s p (s.setIssuer { p with fault := f }) { p with fault := f } :=
  ⟨State.issuer_setIssuer h _, fun r => by cases r <;> rfl, .inl rfl, rfl⟩

/-- Settles O46: the third clause because a command does the same to two states in which `V1` does not exist, and
leaves `V1` as it was or the same in both. -/
theorem resetStateAndItsUnobservableParts : Obligations.ResetStateAndItsUnobservableParts := by
  refine ⟨fun n => ⟨List.length_replicate, rfl, fun _ => resetWith_port⟩, rfl, fun i s t p v hp hs hv ht => ?_⟩
  obtain ⟨a, ha⟩ := exec_action s p i
  rw [ha s p (SeenAlike.refl hp)] at ht
  cases ht
  refine ⟨_, ha _ p (seenAlike_of_not_inited hp hs hv), rfl, rfl, rfl, rfl, ?_⟩
  simp only [Action.apply_v1]
  rcases a.v1_cases with h | ⟨v', h⟩
  · rw [h, h, hs]
    exact ⟨hv, nofun⟩
  · rw [h, h]
    exact ⟨rfl, fun _ => rfl⟩

/-- Settles O51: a command does the same to two states that differ in the issuing port's `FAULT` only. -/
theorem faultRegisterIsUnreadable : Obligations.FaultRegisterIsUnreadable := by
  intro i s t p f hp ht
  obtain ⟨a, ha⟩ := exec_action s p i
  rw [ha s p (SeenAlike.refl hp)] at ht
  cases ht
  have h := seenAlike_of_fault hp f
  obtain ⟨hresp, hregs, hqueue⟩ := a.port_congr h.regs rfl rfl
  exact ⟨_, _, _, ha _ _ h, Action.apply_issuer hp a, Action.apply_issuer h.issuer a, hresp, hregs, hqueue, rfl, rfl⟩

end Sys2Proof.Machine
end

section
/-! PROOF. What a command leaves alone outside its own port, and what it does when it is repeated (20_memory.md R35,
R38): both read off the effect of a command, said once for all commands. -/

namespace Sys2Proof.Machine

variable {i : Instr} {s t t' : State} {p q q' : Port}

/-! ## Frames of a command -/

/-- The two shapes of the state a command leaves: a fault taken, or the effect of the command. -/
theorem exec_next_cases (ht : exec i s = .next t) :
    ∃ p, s.issuer = some p ∧ ((∃ f, t = s.setIssuer (p.takeFault f))
      ∨ ∃ v e w st pl, t = { s with v1 := v, env := e }.setIssuer (w.reply st pl) ∧ Effect i s p v e w st pl) := by
  obtain ⟨p, hp⟩ := issuer_of_exec_next ht
  refine ⟨p, hp, ?_⟩
  rcases exec_cases hp i with ⟨f, hx, -⟩ | ⟨v, e, w, st, pl, hx, ef⟩ <;> rw [hx] at ht <;> cases ht
  · exact .inl ⟨f, rfl⟩
  · exact .inr ⟨v, e, w, st, pl, rfl, ef⟩

/-- A command other than `GENV1` and `V1INIT` leaves `V1` alone. -/
theorem exec_v1_of_not_touches (ht : exec i s = .next t) (hi : ¬ TouchesV1 i) : t.v1 = s.v1 := by
  obtain ⟨p, hp, ⟨f, rfl⟩ | ⟨v, e, w, st, pl, rfl, ef⟩⟩ := exec_next_cases ht
  · rfl
  · exact ef.v1 hi

/-- A command other than `GENV1` takes no clock sample and no arbiter choice. -/
theorem exec_sameClock (ht : exec i s = .next t) (hi : ∀ d, i ≠ .genv1 d) : SameClock s.env t.env := by
  obtain ⟨p, hp, ⟨f, rfl⟩ | ⟨v, e, w, st, pl, rfl, ef⟩⟩ := exec_next_cases ht
  · exact ⟨rfl, rfl, rfl, rfl⟩
  · exact ef.clock hi

/-- A command other than the three generating ones and `RNDBITS` takes no input. -/
theorem exec_env_of_not_generator (ht : exec i s = .next t) (hi : ¬ TouchesV1 i) (h4 : ∀ d, i ≠ .genv4 d)
    (hr : ∀ w, i ≠ .rndbits w) : t.env = s.env := by
  obtain ⟨p, hp, ⟨f, rfl⟩ | ⟨v, e, w, st, pl, rfl, ef⟩⟩ := exec_next_cases ht
  · rfl
  · exact ef.env hi h4 hr

/-- A command changes the issuing port's context only. -/
theorem exec_onlyIssuer (ht : exec i s = .next t) : ∃ q, OnlyIssuer s t q := by
  obtain ⟨p, hp, ⟨f, rfl⟩ | ⟨v, e, w, st, pl, rfl, -⟩⟩ := exec_next_cases ht
  · exact ⟨_, onlyIssuer_setIssuer_self hp _⟩
  · exact ⟨_, onlyIssuer_setIssuer hp v e _⟩

/-- A command that has no destination register leaves the issuing port's registers alone. -/
theorem exec_sameRegs_of_no_dest (hp : s.issuer = some p) (ht : exec i s = .next t) (hq : t.issuer = some q)
    (hd : destOf i = none) : SameRegs p q := by
  obtain ⟨p', hp', ⟨f, rfl⟩ | ⟨v, e, w, st, pl, rfl, ef⟩⟩ := exec_next_cases ht <;> cases hp.symm.trans hp'
  · cases hq.symm.trans (State.issuer_setIssuer hp _)
    exact sameRegs_takeFault p f
  · cases hq.symm.trans (State.issuer_setIssuer (s := { s with v1 := v, env := e }) hp _)
    rw [ef.keep hd]
    exact sameRegs_reply p st pl

/-- Settles O49: clause by clause the frames of a command. -/
theorem onlyGeneratorCommandsTouchSharedState : Obligations.OnlyGeneratorCommandsTouchSharedState := by
  intro i s t ht
  have touches (hv : i ≠ .v1init) (h1 : ∀ d, i ≠ .genv1 d) : ¬ TouchesV1 i := fun h => h.elim hv fun ⟨d, hd⟩ => h1 d hd
  refine ⟨fun hv h1 => exec_v1_of_not_touches ht (touches hv h1), exec_sameClock ht,
    fun hv h1 => exec_env_of_not_generator ht (touches hv h1), ?_⟩
  obtain ⟨q, hq⟩ := exec_onlyIssuer ht
  exact hq.others

/-! ## A read command repeated -/

/-- A read command writes no register and touches neither `V1` nor the inputs. -/
theorem isRead_frame (hr : isRead i = true) :
    destOf i = none ∧ ¬ TouchesV1 i ∧ (∀ d, i ≠ .genv4 d) ∧ ∀ w, i ≠ .rndbits w := by
  cases i <;> simp_all [isRead, destOf, TouchesV1]

/-- The response an action adds is the same on every port. -/
theorem Action.port_responses (a : Action) : ∃ resp, ∀ p : Port, (a.port p).responses = p.responses ++ [resp] := by
  cases a with
  | fault f => exact ⟨[statusOfFault f], fun p => p.takeFault_responses f⟩
  | answer v e w st pl =>
    refine ⟨st :: pl, fun p => ?_⟩
    rcases w with _ | ⟨d, u⟩ <;> simp [Action.port, Port.write]

theorem stickyFault_idem (old status : Byte) : stickyFault (stickyFault old status) status = stickyFault old status := by
  by_cases h : old = 0x00
  · rw [h, stickyFault_zero, stickyFault, ite_self]
  · rw [stickyFault_of_ne h, stickyFault_of_ne h]

/-- Repeated, an action leaves `FAULT` as it was after the first time. -/
theorem Action.port_fault_idem (a : Action) (p : Port) : (a.port (a.port p)).fault = (a.port p).fault := by
  cases a with
  | fault f => exact stickyFault_idem _ _
  | answer v e w st pl => rcases w with _ | ⟨d, u⟩ <;> simp [Action.port, Port.write]

/-- A command leaves one state, with one context of the issuing port. -/
theorem exec_next_unique {u : State} {w : Port} (hx : exec i s = .next u) (hw : u.issuer = some w)
    (ht : exec i s = .next t) (hq : t.issuer = some q) : t = u ∧ q = w := by
  rw [hx] at ht
  cases ht
  exact ⟨rfl, Option.some.inj (hq.symm.trans hw)⟩

/-- A read command repeated finds a state it cannot tell from the first one, so it does the same again. -/
theorem exec_read_twice (hr : isRead i = true) (hp : s.issuer = some p) (ht : exec i s = .next t)
    (hq : t.issuer = some q) (ht' : exec i t = .next t') (hq' : t'.issuer = some q') :
    SameRegs p q ∧ t.v1 = s.v1 ∧ t.env = s.env ∧ q'.fault = q.fault
      ∧ ∃ resp, q.responses = p.responses ++ [resp] ∧ q'.responses = p.responses ++ [resp, resp] := by
  obtain ⟨hd, h1, h4, hw⟩ := isRead_frame hr
  have hregs := exec_sameRegs_of_no_dest hp ht hq hd
  have hv1 := exec_v1_of_not_touches ht h1
  have henv := exec_env_of_not_generator ht h1 h4 hw
  refine ⟨hregs, hv1, henv, ?_⟩
  obtain ⟨a, ha⟩ := exec_action s p i
  have hsame : SeenAlike s p t q := ⟨hq, hregs, .inl hv1, henv⟩
  obtain ⟨-, rfl⟩ := exec_next_unique (ha t q hsame) (Action.apply_issuer hq a) ht' hq'
  obtain ⟨-, rfl⟩ := exec_next_unique (ha s p (SeenAlike.refl hp)) (Action.apply_issuer hp a) ht hq
  obtain ⟨resp, hresp⟩ := a.port_responses
  exact ⟨a.port_fault_idem p, resp, hresp p, by rw [hresp, hresp, List.append_assoc, List.singleton_append]⟩

/-! ## `INIT`, `PARSE` and `V1INIT` repeated -/

/-- Writing into a register the value it holds changes no register. -/
theorem sameRegs_setU_self (p : Port) (d : UReg) : SameRegs p (p.setU d (p.getU d)) := by
  cases d <;> exact SameRegs.refl p

/-- A command that writes one and the same value whatever the state, repeated, writes what is there already. -/
theorem exec_write_twice {d : UReg} {u : Option UuidVal} {st : Byte}
    (hx : ∀ {s p}, s.issuer = some p → exec i s = .next (s.setIssuer ((p.setU d u).reply st [])))
    (hp : s.issuer = some p) (ht : exec i s = .next t) (hq : t.issuer = some q) (ht' : exec i t = .next t')
    (hq' : t'.issuer = some q') : SameRegs q q' ∧ t'.v1 = t.v1 ∧ t'.env = t.env := by
  obtain ⟨rfl, rfl⟩ := exec_next_unique (hx hq) (State.issuer_setIssuer hq _) ht' hq'
  obtain ⟨-, rfl⟩ := exec_next_unique (hx hp) (State.issuer_setIssuer hp _) ht hq
  have hd : ((p.setU d u).reply st []).getU d = u := by rw [Port.reply_getU, Port.getU_setU_self]
  refine ⟨fun r => ?_, rfl, rfl⟩
  have h := sameRegs_setU_self ((p.setU d u).reply st []) d r
  rwa [hd] at h

/-- `V1INIT` repeated finds `V1` created. -/
theorem exec_v1init_twice (hp : s.issuer = some p) (ht : exec .v1init s = .next t) (hq : t.issuer = some q)
    (ht' : exec .v1init t = .next t') (hq' : t'.issuer = some q') :
    SameRegs q q' ∧ t'.v1 = t.v1 ∧ t'.env = t.env := by
  have hi : t.v1.inited = true := by
    rw [exec_v1init hp] at ht
    cases ht
    exact v1Ready_fst_inited s.v1 s.env
  refine ⟨exec_sameRegs_of_no_dest hq ht' hq' rfl, exec_v1_of_inited hi ht' (by simp), ?_⟩
  rw [exec_v1init hq, v1Ready_inited hi] at ht'
  cases ht'
  rfl

/-- Settles O52: a read command does the same again, `INIT` and `PARSE` write the value that is there already, and
`V1INIT` finds `V1` created. -/
theorem repeatingAReadGivesTheSameResponse : Obligations.RepeatingAReadGivesTheSameResponse := by
  intro i s t t' p q q' hp ht hq ht' hq'
  refine ⟨fun hr => exec_read_twice hr hp ht hq ht' hq', ?_⟩
  rintro (⟨d, a, rfl⟩ | ⟨d, text, rfl⟩ | rfl)
  · exact exec_write_twice (fun h => exec_init h d a) hp ht hq ht' hq'
  · exact exec_write_twice (fun h => exec_parse h d text) hp ht hq ht' hq'
  · exact exec_v1init_twice hp ht hq ht' hq'

end Sys2Proof.Machine
end

section
/-! PROOF. The port arbiter over many steps (20_memory.md R36, R37, R42): which port it may serve, that waiting
commands get their responses, with and without packets still arriving, and that every finite schedule goes on to a fair
run. -/

namespace Sys2Proof.Machine

/-! ## The arbiter's freedom -/

/-- Settles O42: a port with a command waiting is among those the arbiter can be made to name, and a port it names
hands over its oldest command. -/
theorem arbiterMayServeAnyWaitingPort : Obligations.ArbiterMayServeAnyWaitingPort := by
  intro s n c pkt rest hc hq
  have hn : n ∈ s.waiting := (s.mem_waiting n).mpr ⟨c, hc, by simp [hq]⟩
  obtain ⟨picks, e, ha, hdraws, hclocks⟩ := State.arbitrate_any hn
  exact ⟨picks, _, State.fetch_of_arbitrate ha hc hq, rfl, rfl, hdraws, hclocks⟩

/-! ## As many steps as commands wait -/

/-- Every step answers a next state. -/
theorem step_next (s : State) : ∃ t, step s = .next t := by
  cases hr : s.resetReq with
  | true => exact ⟨_, step_reset hr⟩
  | false =>
    cases hf : s.fetch with
    | none => exact ⟨_, step_idle hr hf⟩
    | some x =>
      obtain ⟨pkt, s1⟩ := x
      obtain ⟨c, rest, -, -, hi, -⟩ := State.fetch_issuer hf
      cases hd : decode pkt with
      | error f => exact ⟨_, (step_raise hr hf hd).trans (State.raise_eq hi f)⟩
      | ok i => rw [step_exec hr hf hd]; exact exec_next hi i

/-- From `c` to `d` the port has given one response for each command that left its queue. -/
def AnsweredEach (c d : Port) : Prop :=
  ∃ new, d.responses = c.responses ++ new ∧ new.length + d.queue.length = c.queue.length

theorem AnsweredEach.refl (c : Port) : AnsweredEach c c := ⟨[], (List.append_nil _).symm, Nat.zero_add _⟩

theorem AnsweredEach.trans {c d e : Port} (h : AnsweredEach c d) (h' : AnsweredEach d e) : AnsweredEach c e := by
  obtain ⟨new, hr, hl⟩ := h
  obtain ⟨new', hr', hl'⟩ := h'
  exact ⟨new ++ new', by rw [hr', hr, List.append_assoc], by rw [List.length_append]; omega⟩

/-- A step answers each command it takes from a queue. -/
theorem step_answeredEach {s t : State} {n : Nat} {c : Port} (hr : s.resetReq = false) (ht : step s = .next t)
    (hc : s.ports[n]? = some c) : ∃ d, t.ports[n]? = some d ∧ AnsweredEach c d := by
  rcases step_port hr ht hc with ⟨-, hd⟩ | ⟨-, pkt, rest, d, resp, hq, hd, hdq, hdr⟩
  · exact ⟨c, hd, AnsweredEach.refl c⟩
  · exact ⟨d, hd, [resp], hdr, by rw [hdq, hq, List.length_cons, Nat.add_comm]; rfl⟩

/-- Where nothing waits every queue is empty. -/
theorem queue_eq_nil_of_pending {s : State} {n : Nat} {c : Port} (h : s.pending = 0) (hc : s.ports[n]? = some c) :
    c.queue = [] := by
  rw [State.pending_eq_zero, State.fetch_eq_none] at h
  by_contra hq
  have hn : n ∈ s.waiting := (s.mem_waiting n).mpr ⟨c, hc, hq⟩
  rw [h] at hn
  cases hn

theorem run_succ {s t : State} (h : step s = .next t) (k : Nat) :
    Host.Core.run core (k + 1) s = Host.Core.run core k t := by
  simp only [Host.Core.run, core, h]

/-- As many steps as commands wait leave none waiting, each of them answered on its port. -/
theorem run_pending (k : Nat) {s : State} (hr : s.resetReq = false) (hk : s.pending = k) :
    ∃ t : State, Host.Core.run core k s = .next t ∧ t.pending = 0 ∧ t.ports.length = s.ports.length
      ∧ ∀ (n : Nat) (c : Port), s.ports[n]? = some c → ∃ d, t.ports[n]? = some d ∧ AnsweredEach c d := by
  induction k generalizing s with
  | zero => exact ⟨s, rfl, hk, rfl, fun _ c hc => ⟨c, hc, AnsweredEach.refl c⟩⟩
  | succ k ih =>
    obtain ⟨s', hs'⟩ := step_next s
    cases hf : s.fetch with
    | none =>
      have := s.pending_eq_zero.mpr hf
      omega
    | some x =>
      have hk' := step_pending (pkt := x.1) (s1 := x.2) hr hf hs'
      obtain ⟨hlen, hr'⟩ := step_length hr hs'
      obtain ⟨t, ht, ht0, htlen, hports⟩ := ih hr' (by omega)
      refine ⟨t, (run_succ hs' k).trans ht, ht0, htlen.trans hlen, fun n c hc => ?_⟩
      obtain ⟨c', hc', h⟩ := step_answeredEach hr hs' hc
      obtain ⟨d, hd, h'⟩ := hports n c' hc'
      exact ⟨d, hd, h.trans h'⟩

/-- Settles O43: each step answers one waiting command, on the port whose queue it leaves. -/
theorem everyWaitingCommandIsAnswered : Obligations.EveryWaitingCommandIsAnswered := by
  intro s hr
  obtain ⟨t, ht, ht0, hlen, hports⟩ := run_pending s.pending hr rfl
  refine ⟨t, ht, ht0, hlen, fun n c hc => ?_⟩
  obtain ⟨d, hd, new, hresp, hl⟩ := hports n c hc
  have hq := queue_eq_nil_of_pending ht0 hd
  exact ⟨d, new, hd, hq, hresp, by simpa [hq] using hl⟩

/-! ## Runs in which packets keep arriving -/

variable {τ : Nat → State}

/-- In a run a port with a command waiting is served at some step: if it were not, it would have the command waiting at
every step, which weak fairness rules out. -/
theorem Run.serves {k n : Nat} {c : Port} (h : Run τ) (hc : (τ k).ports[n]? = some c) (hq : c.queue ≠ []) :
    ∃ m, (τ (k + m)).Serves n := by
  obtain ⟨hadv, hfair⟩ := h
  by_contra hnone
  rw [not_exists] at hnone
  have hnever (l : Nat) (hl : k ≤ l) : ¬ (τ l).Serves n := Nat.add_sub_cancel' hl ▸ hnone (l - k)
  have hwaits (m : Nat) (hm : k ≤ m) : (τ m).hasCommand n = true := by
    obtain ⟨d, sent, hd, hdq, -⟩ := port_until_served hadv hc (m - k) fun l hl _ => hnever l hl
    rw [Nat.add_sub_cancel' hm] at hd
    exact (State.hasCommand_iff _ n).mpr ⟨d, hd, by simp [hdq, hq]⟩
  obtain ⟨m, hm, hs⟩ := hfair n k hwaits
  exact hnever m hm hs

/-- In a run the oldest command of a port is executed at some step, and until then the port keeps the others. -/
theorem Run.answers_oldest {k n : Nat} {c : Port} {pkt : Packet} {rest : List Packet} (h : Run τ)
    (hc : (τ k).ports[n]? = some c) (hq : c.queue = pkt :: rest) :
    ∃ m d sent resp, k ≤ m ∧ (τ m).ports[n]? = some d ∧ d.queue = rest ++ sent ∧ d.responses = c.responses ++ [resp] := by
  classical
  have hserved := h.serves hc (by simp [hq])
  have hbefore (l : Nat) (hk : k ≤ l) (hl : l < k + Nat.find hserved) : ¬ (τ l).Serves n := by
    have := Nat.find_min hserved (m := l - k) (by omega)
    rwa [Nat.add_sub_cancel' hk] at this
  obtain ⟨c', sent, hc', hcq, hcr⟩ := port_until_served h.1 hc _ hbefore
  obtain ⟨d, sent', hd, hcases⟩ := (h.1 _).port hc'
  rcases hcases with ⟨hno, -⟩ | ⟨-, pkt', rest', resp, hcq', hdq, hdr⟩
  · exact absurd (Nat.find_spec hserved) hno
  · rw [hcq, hq, List.cons_append, List.cons.injEq] at hcq'
    refine ⟨_, d, sent ++ sent', resp, by omega, hd, ?_, by rw [hdr, hcr]⟩
    rw [hdq, ← hcq'.2, List.append_assoc]

/-- In a run the commands at the head of a port's queue are answered one after the other, whatever waits behind. -/
theorem Run.answers {n : Nat} (h : Run τ) (cmds : List Packet) {k : Nat} {c : Port} {behind : List Packet}
    (hc : (τ k).ports[n]? = some c) (hq : c.queue = cmds ++ behind) :
    ∃ m d new, k ≤ m ∧ (τ m).ports[n]? = some d ∧ d.responses = c.responses ++ new ∧ new.length = cmds.length := by
  induction cmds generalizing k c behind with
  | nil => exact ⟨k, c, [], Nat.le_refl k, hc, (List.append_nil _).symm, rfl⟩
  | cons pkt cmds ih =>
    obtain ⟨l, c', sent, resp, hl, hc', hcq, hcr⟩ := h.answers_oldest hc hq
    obtain ⟨m, d, new, hm, hd, hdr, hlen⟩ := ih hc' (hcq.trans (List.append_assoc _ _ _))
    exact ⟨m, d, resp :: new, Nat.le_trans hl hm, hd, by rw [hdr, hcr, List.append_assoc, List.singleton_append],
      by rw [List.length_cons, List.length_cons, hlen]⟩

/-- Settles O53: by induction over the waiting commands, each the oldest in its turn. -/
theorem everySentCommandIsEventuallyExecuted : Obligations.EverySentCommandIsEventuallyExecuted :=
  fun _ h _ _ c hc => h.answers c.queue hc (List.append_nil _).symm

/-! ## A fair continuation of a finite schedule -/

/-- The hosts send `send n` on each port `n`, and the arbiter's choices are scripted by `picks`. -/
def State.receive (s : State) (send : Nat → List Packet) (picks : List Nat) : State :=
  { s with ports := s.ports.mapIdx fun n c => { c with queue := c.queue ++ send n }
           env := { s.env with picks := picks } }

theorem State.receive_port {s : State} {n : Nat} {c : Port} (hc : s.ports[n]? = some c) (send : Nat → List Packet)
    (picks : List Nat) : (s.receive send picks).ports[n]? = some { c with queue := c.queue ++ send n } := by
  simp [State.receive, hc]

/-- What `State.receive` does is what the outside may do between two steps. -/
theorem inputs_receive (s : State) (send : Nat → List Packet) (picks : List Nat) : Inputs s (s.receive send picks) :=
  ⟨List.length_mapIdx, fun n _ hc => ⟨send n, State.receive_port hc send picks⟩, rfl, rfl, rfl, rfl, rfl, rfl⟩

/-- Whatever arrives, the arbiter's choices can be scripted so that it serves port `n` if a command waits there. -/
theorem exists_receive_serves (s : State) (send : Nat → List Packet) (n : Nat) :
    ∃ picks, (s.receive send picks).hasCommand n = true → (s.receive send picks).Serves n := by
  by_cases hn : n ∈ (s.receive send []).waiting
  · obtain ⟨picks, e, ha, -⟩ := State.arbitrate_any hn
    exact ⟨picks, fun _ => ⟨e, ha⟩⟩
  · refine ⟨[], fun h => absurd ?_ hn⟩
    exact (State.mem_waiting _ n).mpr ((State.hasCommand_iff _ n).mp h)

/-- `t` comes from `s` by one step and the arrival of `send`, and its arbiter serves port `n` if a command waits
there. -/
def Favours (send : Nat → List Packet) (n : Nat) (s t : State) : Prop :=
  ∃ s' picks, step s = .next s' ∧ t = s'.receive send picks ∧ (t.hasCommand n = true → t.Serves n)

theorem exists_favours (send : Nat → List Packet) (n : Nat) (s : State) : ∃ t, Favours send n s t := by
  obtain ⟨s', hs'⟩ := step_next s
  obtain ⟨picks, h⟩ := exists_receive_serves s' send n
  exact ⟨_, s', picks, hs', rfl, h⟩

/-- The sequence that is `σ` up to `K` and goes on from there by `next`. -/
def extend (K : Nat) (σ : Nat → State) (next : Nat → State → State) : Nat → State
  | 0     => σ 0
  | k + 1 => if k < K then σ (k + 1) else next k (extend K σ next k)

theorem extend_of_le {K k : Nat} (h : k ≤ K) (σ : Nat → State) (next : Nat → State → State) :
    extend K σ next k = σ k := by
  cases k with
  | zero => rfl
  | succ k => rw [extend, if_pos (Nat.lt_of_succ_le h)]

theorem extend_succ {K k : Nat} (h : K ≤ k) (σ : Nat → State) (next : Nat → State → State) :
    extend K σ next (k + 1) = next k (extend K σ next k) := by
  rw [extend, if_neg (Nat.not_lt.mpr h)]

section Continuation

variable {K : Nat} {sends : Nat → Nat → List Packet} {port : Nat → Nat}
  (hτ : ∀ k, K ≤ k → Favours (sends k) (port k) (τ k) (τ (k + 1)))
include hτ

/-- No reset comes in a continuation. -/
theorem resetReq_of_favours (hK : (τ K).resetReq = false) {k : Nat} (hk : K ≤ k) : (τ k).resetReq = false := by
  induction k, hk using Nat.le_induction with
  | base => exact hK
  | succ k hk ih =>
    obtain ⟨s', picks, hs', ht, -⟩ := hτ k hk
    rw [ht]
    exact (step_length ih hs').2

theorem advances_of_favours (hK : (τ K).resetReq = false) {k : Nat} (hk : K ≤ k) : Advances τ k := by
  obtain ⟨s', picks, hs', ht, -⟩ := hτ k hk
  exact ⟨resetReq_of_favours hτ hK hk, s', hs', ht ▸ inputs_receive s' (sends k) picks⟩

/-- A continuation that favours each port again and again is fair. -/
theorem weaklyFair_of_favours (hport : ∀ n k, ∃ m, k ≤ m ∧ port m = n) : WeaklyFair τ := by
  intro n k hwaits
  obtain ⟨m, hm, rfl⟩ := hport n (max k K)
  obtain ⟨s', picks, -, -, hserves⟩ := hτ m (by omega)
  exact ⟨m + 1, by omega, hserves (hwaits (m + 1) (by omega))⟩

end Continuation

/-- The port favoured after step `k`: the first component of the pair that `k` codes. -/
def favouredPort (k : Nat) : Nat := (Nat.unpair k).1

/-- Each port is favoured again and again. -/
theorem exists_favouredPort (n k : Nat) : ∃ m, k ≤ m ∧ favouredPort m = n :=
  ⟨Nat.pair n k, Nat.right_le_pair n k, by rw [favouredPort, Nat.unpair_pair]⟩

/-- Settles O54: the schedule goes on with the arbiter serving, where a command waits there, the favoured port of each
step, so that no port is passed over for ever. -/
theorem fairnessRestrictsNoFiniteSchedule : Obligations.FairnessRestrictsNoFiniteSchedule := by
  intro K σ sends hσ hK
  choose next hnext using fun k => exists_favours (sends k) (favouredPort k)
  have hpast {k : Nat} (hk : k ≤ K) : extend K σ next k = σ k := extend_of_le hk σ next
  have hτ (k : Nat) (hk : K ≤ k) :
      Favours (sends k) (favouredPort k) (extend K σ next k) (extend K σ next (k + 1)) := by
    rw [extend_succ hk]
    exact hnext k _
  refine ⟨extend K σ next, ⟨fun k => ?advances, ?fair⟩, fun k => hpast, fun k hk => ?sends⟩
  case advances =>
    rcases Nat.lt_or_ge k K with hk | hk
    · rw [Advances, hpast hk.le, hpast hk]
      exact hσ k hk
    · exact advances_of_favours hτ (by rwa [hpast le_rfl]) hk
  case fair => exact weaklyFair_of_favours hτ exists_favouredPort
  case sends =>
    obtain ⟨s', picks, hs', ht, -⟩ := hτ k hk
    refine ⟨s', hs', fun n c hc => ?_⟩
    rw [ht]
    exact State.receive_port hc (sends k) picks

end Sys2Proof.Machine
end

section
/-! PROOF. Commands and packets correspond one to one (30_encoding.md R46 to R48, R58, R59, R62): a command's packet
passes the decoder's checks and gives the command back, and a packet that passes them is the packet of its command. -/

namespace Sys2Proof

/-! ## From a command to its packet and back -/

/-- A command's packet starts with the opcode byte of the command, no must-be-zero bit set. -/
theorem encode_opcodeByte : ∀ i : Instr, Laws.OpcodeByte.Statement i
  | .init d args   => Laws.OpcodeByte.init d args
  | .genv4 d       => Laws.OpcodeByte.genv4 d
  | .genv1 d       => Laws.OpcodeByte.genv1 d
  | .v1init        => Laws.OpcodeByte.v1init
  | .parse d text  => Laws.OpcodeByte.parse d text
  | .tostr u       => Laws.OpcodeByte.tostr u
  | .eq a b        => Laws.OpcodeByte.eq a b
  | .rdf u f r     => Laws.OpcodeByte.rdf u f r
  | .rdver u       => Laws.OpcodeByte.rdver u
  | .rdbits u      => Laws.OpcodeByte.rdbits u
  | .rndbits w     => Laws.OpcodeByte.rndbits w
  | .fmt v l r     => Laws.OpcodeByte.fmt v l r

theorem wellFormed_parse_iff (d : UReg) (text : Text) : (Instr.parse d text).wellFormed = true ↔ text.length ≤ 255 :=
  decide_eq_true_iff

theorem n1_initMask (a : InitArgs) :
    n1 (initMask a) = a.timeLow.isSome.toNat + a.timeMid.isSome.toNat + a.timeHiAndVersion.isSome.toNat
      + a.clockSeqHiAndReserved.isSome.toNat + a.clockSeqLow.isSome.toNat + a.node.isSome.toNat := by
  rw [initMask_eq, n1_maskOfBits]

theorem initMask_reserved_clear (a : InitArgs) : initMask a &&& 0xC0 = 0 := by
  obtain ⟨-, -, -, -, -, -, h⟩ :=
    maskOfBits_getLsbD a.timeLow.isSome a.timeMid.isSome a.timeHiAndVersion.isSome
      a.clockSeqHiAndReserved.isSome a.clockSeqLow.isSome a.node.isSome
  rw [initMask_eq, h]

/-- A command's packet has the length its format requires. -/
theorem requiredLength_encode {i : Instr} (hi : i.wellFormed = true) :
    requiredLength (opOf i) (encode i).tail.head? = some (encode i).length := by
  cases i with
  | init d a =>
    simp only [encode, opOf, requiredLength, List.tail_cons, List.head?_cons, Option.map_some, n1_initMask,
      List.length_cons, List.length_append, operandBytes_length, Option.some.injEq]
    omega
  | parse d text =>
    have hl := (wellFormed_parse_iff d text).mp hi
    simp only [encode, opOf, requiredLength, List.tail_cons, List.head?_cons, Option.map_some, BitVec.toNat_ofNat,
      List.length_cons, Option.some.injEq]
    omega
  | _ => rfl

/-- The second byte of a command's packet uses no reserved value. -/
theorem reservedByte_encode {i : Instr} {b : Byte} {rest : List Byte} (he : encode i = b :: rest)
    (hb : b &&& mustBeZero (opOf i) = 0) : reservedByte (opOf i) b (rest.headD 0) = none := by
  rw [reservedByte_eq_none_iff]
  refine ⟨hb, fun hop => ?init, fun hop => ?rdf⟩
  case init =>
    cases i with
    | init d a =>
      cases he
      exact initMask_reserved_clear a
    | _ => cases hop
  case rdf =>
    cases i with
    | rdf u f r =>
      cases he
      exact ⟨rdfSelector_reserved_clear f r, by simp⟩
    | _ => cases hop

/-- Reading a command's packet gives the command's operands. -/
theorem assemble_encode (i : Instr) : assemble (opOf i) (encode i) = i := by
  cases i with
  | init d a => simp [encode, opOf, assemble, initArgsOf_operandBytes]
  | fmt v l r => exact congrArg (Instr.fmt · l r) (be64_be64Bytes v)
  | _ => simp [encode, opOf, assemble]

theorem decode_encode {i : Instr} (hi : i.wellFormed = true) : decode (encode i) = .ok i := by
  obtain ⟨b, rest, he, hop, hb⟩ := encode_opcodeByte i
  have hl := requiredLength_encode hi
  have ha := assemble_encode i
  have hr := reservedByte_encode he hb
  rw [he, List.tail_cons, List.length_cons] at hl
  rw [he] at ha ⊢
  rw [decode_ok hop hl hr, ha]

/-- Settles O1: a command's packet passes the three checks, and its operands read back as the command's. -/
theorem decodeOfEncodeIsTheCommand : Obligations.DecodeOfEncodeIsTheCommand := fun _ => decode_encode

/-! ## From a packet to its command and back -/

/-- `rb` is 0 where its bits must be zero: in every opcode byte but that of `EQ`. -/
theorem eq_opByte_of_rb_zero {b : Byte} {op : Op} (h : opOfByte b = some op) (hz : b &&& mustBeZero op = 0)
    (hop : op ≠ .eq) : b = opByte op (raOf b) .u0 := by
  revert op
  revert b
  decide

/-- `ra` and `rb` are 0 where their bits must be zero: the commands without a register. -/
theorem eq_opByte_of_nibble {b : Byte} {op : Op} (h : opOfByte b = some op) (hz : b &&& mustBeZero op = 0)
    (hop : mustBeZero op = 0x0F) : b = opByte op .u0 .u0 := by
  revert op
  revert b
  decide

/-- A selector byte that uses no reserved value is the selector of a field and a representation. -/
theorem exists_rdfSelector {b : Byte} (h : b &&& 0xE0 = 0 ∧ fieldOfSelector b ≠ none ∧ repOfSelector b ≠ none) :
    ∃ f k, b = rdfSelector f k := by
  obtain ⟨hclear, hf, hk⟩ := h
  obtain ⟨f, hf⟩ := Option.ne_none_iff_exists'.mp hf
  obtain ⟨k, hk⟩ := Option.ne_none_iff_exists'.mp hk
  exact ⟨f, k, eq_rdfSelector hclear hf hk⟩

/-- What follows a two-byte packet's opcode byte. -/
theorem eq_singleton_of_requiredLength {rest : List Byte} (h : some 2 = some (rest.length + 1)) : ∃ b, rest = [b] := by
  exact List.length_eq_one_iff.mp (by simpa [eq_comm] using h)

/-- What follows the opcode byte of `FMT`. -/
theorem eq_fmtOperands_of_requiredLength {rest : List Byte} (h : some 11 = some (rest.length + 1)) :
    ∃ l r v, rest = l :: r :: be64Bytes v := by
  match rest, h with
  | l :: r :: bs, h =>
    have hbs : bs.length = 8 := by simpa [eq_comm] using h
    refine ⟨l, r, be64 bs, ?_⟩
    rw [be64Bytes_be64_take hbs.ge, List.take_of_length_le hbs.le]

/-- A packet that passed the three checks is the packet of its command, which is well-formed. -/
theorem encode_assemble {b0 : Byte} {rest : List Byte} {op : Op} (ho : opOfByte b0 = some op)
    (hl : requiredLength op rest.head? = some (rest.length + 1)) (hr : reservedByte op b0 (rest.headD 0) = none) :
    (assemble op (b0 :: rest)).wellFormed = true ∧ encode (assemble op (b0 :: rest)) = b0 :: rest := by
  obtain ⟨hz, hinit, hrdf⟩ := (reservedByte_eq_none_iff _ _ _).mp hr
  cases op with
  | init =>
    cases rest with
    | nil => cases hl
    | cons m body =>
      have hlen : 2 + 8 * n1 m = body.length + 1 + 1 := Option.some.inj hl
      have hbody : body.length = 8 * n1 m := by omega
      obtain ⟨hmask, hbytes⟩ := operandBytes_initArgsOf (hinit rfl) hbody
      exact ⟨rfl, congrArg₂ (· :: ·) (eq_opByte_of_rb_zero ho hz nofun).symm (congrArg₂ (· :: ·) hmask hbytes)⟩
  | parse =>
    cases rest with
    | nil => cases hl
    | cons n text =>
      have hlen : 2 + n.toNat = text.length + 1 + 1 := Option.some.inj hl
      have htext : text.length = n.toNat := by omega
      have hn : BitVec.ofNat 8 text.length = n := by rw [htext, BitVec.ofNat_toNat, BitVec.setWidth_eq]
      have hmax : text.length ≤ 255 := by omega
      exact ⟨(wellFormed_parse_iff (raOf b0) text).mpr hmax,
        congrArg₂ (· :: ·) (eq_opByte_of_rb_zero ho hz nofun).symm (congrArg (· :: text) hn)⟩
  | genv4 | genv1 | tostr | rdver | rdbits =>
    obtain rfl : rest = [] := by simpa [requiredLength] using hl
    exact ⟨rfl, congrArg (· :: []) (eq_opByte_of_rb_zero ho hz nofun).symm⟩
  | v1init =>
    obtain rfl : rest = [] := by simpa [requiredLength] using hl
    exact ⟨rfl, congrArg (· :: []) (eq_opByte_of_nibble ho hz rfl).symm⟩
  | eq =>
    obtain rfl : rest = [] := by simpa [requiredLength] using hl
    exact ⟨rfl, congrArg (· :: []) (eq_opByte_of_opOfByte ho).symm⟩
  | rdf =>
    obtain ⟨b1, rfl⟩ := eq_singleton_of_requiredLength hl
    obtain ⟨f, k, rfl⟩ := exists_rdfSelector (hrdf rfl)
    have ha : assemble .rdf [b0, rdfSelector f k] = .rdf (raOf b0) f k := by simp [assemble]
    rw [ha]
    exact ⟨rfl, congrArg (· :: [_]) (eq_opByte_of_rb_zero ho hz nofun).symm⟩
  | rndbits =>
    obtain ⟨w, rfl⟩ := eq_singleton_of_requiredLength hl
    exact ⟨rfl, congrArg (· :: [w]) (eq_opByte_of_nibble ho hz rfl).symm⟩
  | fmt =>
    obtain ⟨l, r, v, rfl⟩ := eq_fmtOperands_of_requiredLength hl
    exact ⟨rfl, congrArg₂ (· :: ·) (eq_opByte_of_nibble ho hz rfl).symm
      (congrArg (l :: r :: be64Bytes ·) (be64_be64Bytes v))⟩

/-- A packet that decodes is the packet of a well-formed command. -/
theorem eq_encode_of_decode {pkt : Packet} {i : Instr} (h : decode pkt = .ok i) :
    i.wellFormed = true ∧ pkt = encode i := by
  cases pkt with
  | nil => cases h
  | cons b0 rest =>
    obtain ⟨op, ho, hl, hr, rfl⟩ := decode_ok_inv h
    obtain ⟨hwf, he⟩ := encode_assemble ho hl hr
    exact ⟨hwf, he.symm⟩

/-- `INIT` uses the values of its operands only, so one omitted is as good as one that is 0. -/
theorem exec_init_congr (d : UReg) {a b : InitArgs} (h : Machine.initValue a = Machine.initValue b)
    (s : Machine.State) : Machine.exec (.init d a) s = Machine.exec (.init d b) s := by
  simp only [Machine.exec, Machine.execInit, h]

/-- Settles O2: the packet is the encoder's, since it decodes to the command and each packet that decodes is the
encoder's; and `INIT` with an operand omitted constructs the value it constructs of 0. -/
theorem everyCommandHasExactlyOnePacket : Obligations.EveryCommandHasExactlyOnePacket := by
  refine ⟨fun i hi => ⟨encode i, decode_encode hi, fun q hq => (eq_encode_of_decode hq).2⟩,
    fun _ _ => eq_encode_of_decode, fun d a b s h0 h1 h2 h3 h4 h5 => ⟨rfl, rfl, exec_init_congr d ?_ s⟩⟩
  simp only [Machine.initValue, Machine.operandValue, h0, h1, h2, h3, h4, h5]

end Sys2Proof
end

section
/-! PROOF. The decoder's checks are those of the spec's tables, written once more in Safety.lean (30_encoding.md R47,
R51 to R55): opcode, length, reserved values. -/

namespace Sys2Proof

open Machine

/-! ## The tables of the claims and those of the decoder -/

/-- The opcode nibble of a byte is that of its opcode. -/
theorem nibble_of_opOfByte {b : Byte} {op : Op} (h : opOfByte b = some op) : b.toNat / 16 = (opBits op).toNat := by
  revert op
  revert b
  decide

/-- A nibble from 0x1 to 0xC is an opcode. -/
theorem exists_opOfByte {b : Byte} (h1 : 1 ≤ b.toNat / 16) (h12 : b.toNat / 16 ≤ 12) : ∃ op, opOfByte b = some op := by
  rw [← Option.ne_none_iff_exists', ne_eq, opOfByte_eq_none_iff]
  omega

theorem n1_eq_count (m : Byte) : n1 m = ((List.range 6).filter m.getLsbD).length := by
  revert m
  decide

theorem lengthByTable_eq (op : Op) (b1 : Option Byte) : lengthByTable (opBits op).toNat b1 = requiredLength op b1 := by
  cases op with
  | init => simp [lengthByTable, requiredLength, opBits, n1_eq_count]
  | _ => rfl

theorem and_low_eq_zero_iff (b : Byte) : b &&& 0x03#8 = 0#8 ↔ b.toNat % 4 = 0 := by
  revert b
  decide

theorem and_nibble_eq_zero_iff (b : Byte) : b &&& 0x0F#8 = 0#8 ↔ b.toNat % 4 = 0 ∧ b.toNat / 4 % 4 = 0 := by
  revert b
  decide

theorem and_maskTop_eq_zero_iff (b : Byte) : b &&& 0xC0#8 = 0#8 ↔ b.toNat / 64 = 0 := by
  revert b
  decide

theorem and_selectorTop_eq_zero_iff (b : Byte) : b &&& 0xE0#8 = 0#8 ↔ b.toNat / 32 = 0 := by
  revert b
  decide

theorem fieldOfSelector_eq_none_iff (b : Byte) : fieldOfSelector b = none ↔ b.toNat % 8 = 6 ∨ b.toNat % 8 = 7 := by
  revert b
  decide

theorem repOfSelector_eq_none_iff (b : Byte) : repOfSelector b = none ↔ b.toNat / 8 % 4 = 3 := by
  revert b
  decide

/-- The decoder finds no reserved value exactly where the table has none. -/
theorem reservedByte_eq_none_iff_table (op : Op) (b0 b1 : Byte) :
    reservedByte op b0 b1 = none ↔ ¬ ReservedByTable (opBits op).toNat b0 b1 := by
  rw [reservedByte_eq_none_iff]
  cases op <;> simp [ReservedByTable, opBits, mustBeZero, and_low_eq_zero_iff, and_nibble_eq_zero_iff,
    and_maskTop_eq_zero_iff, and_selectorTop_eq_zero_iff, fieldOfSelector_eq_none_iff, repOfSelector_eq_none_iff, and_assoc]

/-- Settles O4: on a byte with a legal opcode the tables of the claims are the decoder's, whose outcome on each check is
known. -/
theorem decoderChecksOpcodeThenLengthThenReserved : Obligations.DecoderChecksOpcodeThenLengthThenReserved := by
  refine ⟨rfl, fun b0 rest h => decode_illegalOpcode ((opOfByte_eq_none_iff b0).mpr h) rest, ?length, ?reserved, ?ok⟩
  case length =>
    intro b0 rest h1 h12 hl
    obtain ⟨op, ho⟩ := exists_opOfByte h1 h12
    rw [nibble_of_opOfByte ho, lengthByTable_eq] at hl
    exact decode_badLength ho hl
  case reserved =>
    intro b0 rest h1 h12 hl hr
    obtain ⟨op, ho⟩ := exists_opOfByte h1 h12
    rw [nibble_of_opOfByte ho] at hl hr
    rw [lengthByTable_eq] at hl
    obtain ⟨b, hb⟩ := Option.ne_none_iff_exists'.mp fun hn => (reservedByte_eq_none_iff_table op _ _).mp hn hr
    rw [decode_reservedField ho hl hb]
    exact (reservedByte_eq_some hb).imp (congrArg _ <| congrArg _ ·) (congrArg _ <| congrArg _ ·)
  case ok =>
    intro b0 rest h1 h12 hl hr
    obtain ⟨op, ho⟩ := exists_opOfByte h1 h12
    rw [nibble_of_opOfByte ho] at hl hr
    rw [lengthByTable_eq] at hl
    exact ⟨_, decode_ok ho hl ((reservedByte_eq_none_iff_table op _ _).mpr hr)⟩

end Sys2Proof
end

section
/-! PROOF. Every command answers once (30_encoding.md R49, R50): read off the two shapes of the state a command
leaves. -/

namespace Sys2Proof.Machine

/-- A fault's status is none of the two of a normal response. -/
theorem statusOfFault_ne (f : CmdFault) : statusOfFault f ≠ 0x00 ∧ statusOfFault f ≠ 0x01 := by
  have h := (statusOfFault_range f).1
  constructor <;> intro h0 <;> simp [h0] at h

/-- Settles O38: a fault answers its status alone, and the effect of a command says what else it answers. -/
theorem everyCommandAnswersOnce : Obligations.EveryCommandAnswersOnce := by
  intro i s t p hp ht
  obtain ⟨p', hp', ⟨f, rfl⟩ | ⟨v, e, w, st, pl, rfl, ef⟩⟩ := exec_next_cases ht <;> cases hp.symm.trans hp'
  · obtain ⟨h0, h1⟩ := statusOfFault_ne f
    exact ⟨_, statusOfFault f, [], onlyIssuer_setIssuer_self hp _, answered_takeFault p f,
      .inr (statusOfFault_range f), fun h => absurd h h0, fun _ => rfl, fun h => absurd h h1, nofun, nofun⟩
  · obtain ⟨hqueue, hresp, -⟩ := ef.port
    refine ⟨_, st, pl, onlyIssuer_setIssuer hp v e _, ⟨by rw [Port.reply_responses, hresp], hqueue⟩, ?range, ef.okLength,
      ef.noResult, ?absent, ef.eqBit, ef.nibble⟩
    case range => rcases ef.status with rfl | ⟨rfl, -⟩ <;> decide
    case absent => exact fun h => ef.status.elim (fun h0 => by rw [h] at h0; cases h0) And.right

end Sys2Proof.Machine
end

section
/-! PROOF. The field codec (40_field_codec.md): what the digit strings are (R69, R70), what the random integer takes
and gives (R66), and what `RNDBITS` (R71) and `FMT` (R72) answer inside and outside their domains. -/

namespace Sys2Proof.Machine

/-! ## Digit strings -/

/-- The padding changes nothing where the string has its length already. -/
theorem alignNumber_digits_length (value radix : Nat) :
    alignNumber value (digits value radix).length radix = digits value radix := by
  simp [alignNumber]

section Digits

variable {value length radix : Nat} (h2 : 2 ≤ radix) (h36 : radix ≤ 36)

include h2

theorem one_le_digits_length (value : Nat) : 1 ≤ (digits value radix).length := by
  obtain ⟨-, h, -⟩ := digits_spec h2 value
  exact h

/-- A value fits in a length from 1 on exactly when it is below the radix to that power. -/
theorem digits_length_le_iff (hl : 1 ≤ length) :
    (digits value radix).length ≤ length ↔ value < radix ^ length := by
  obtain ⟨-, -, h⟩ := digits_spec h2 value
  exact h length hl

theorem alignNumber_length (h : (digits value radix).length ≤ length) :
    (alignNumber value length radix).length = length := by
  rw [alignNumber_eq_fixedDigits h2 h, fixedDigits_length]

include h36

theorem alignNumber_isDigitOf (h : (digits value radix).length ≤ length) :
    ∀ c ∈ alignNumber value length radix, IsDigitOf radix c := by
  rw [alignNumber_eq_fixedDigits h2 h]
  exact fixedDigits_isDigitOf h2 h36 length value

theorem denoted_alignNumber (h : (digits value radix).length ≤ length) :
    denoted radix (alignNumber value length radix) = value := by
  have hv : value < radix ^ length := (digits_length_le_iff h2 ((one_le_digits_length h2 value).trans h)).mp h
  rw [alignNumber_eq_fixedDigits h2 h, denoted_fixedDigits h2 h36, Nat.mod_eq_of_lt hv]

end Digits

/-- A string of digits is no shorter than the digits of the number it denotes. -/
theorem digits_length_le_of_denoted {radix : Nat} (h2 : 2 ≤ radix) {t : Text} (hne : t ≠ [])
    (ht : ∀ c ∈ t, IsDigitOf radix c) : (digits (denoted radix t) radix).length ≤ t.length :=
  (digits_length_le_iff h2 (List.length_pos_iff.mpr hne)).mpr (denoted_lt t ht)

/-- Settles O5: `Digits` is `AlignNumber` at its own length, and a number that a string denotes fits in that string's
length. -/
theorem digitsAreTheShortestDigitString : Obligations.DigitsAreTheShortestDigitString := by
  intro value radix h2 h36
  have hdigit := alignNumber_isDigitOf h2 h36 (le_refl (digits value radix).length)
  have hvalue := denoted_alignNumber h2 h36 (le_refl (digits value radix).length)
  rw [alignNumber_digits_length] at hdigit hvalue
  refine ⟨digits_of_lt, digits_of_ge h2, digits_of_lt (by omega), hdigit, hvalue, ?shortest⟩
  rintro t hne ht rfl
  exact digits_length_le_of_denoted h2 hne ht

/-- Settles O6: by the length and the value of the padded string, and the length from which on a value fits. -/
theorem alignNumberHasItsLengthAndItsValue : Obligations.AlignNumberHasItsLengthAndItsValue := by
  intro value length radix h2 h36
  exact ⟨fun h => ⟨rfl, alignNumber_length h2 h, denoted_alignNumber h2 h36 h⟩, digits_length_le_iff h2,
    Nat.not_le_of_lt (one_le_digits_length h2 value)⟩

/-! ## The random integer -/

theorem Env.drawAt_of_draws {e : Env} {a b : BitVec 30} {rest : List (BitVec 30)} (h : e.draws = a :: b :: rest) :
    e.drawAt 0 = a ∧ e.drawAt 1 = b := by
  simp [Env.drawAt, h]

/-- No draw: width 0. -/
theorem randomBits_none {width : Nat} (h : width = 0) (e : Env) :
    (randomBits width e).1 = 0 ∧ TookDraws 0 e (randomBits width e).2 := by
  rw [h, randomBits_of_le (Nat.zero_le 30), Env.draw_zero]
  exact ⟨rfl, TookDraws.zero e⟩

/-- A value below `2^width` comes out where the first sample is its low 30 bits and the second one the rest. -/
theorem randomBits_of_samples {width v : Nat} (hw : width ≤ 53) (hv : v < 2 ^ width) {e : Env}
    (h0 : e.drawAt 0 = BitVec.ofNat 30 v) (h1 : e.drawAt 1 = BitVec.ofNat 30 (v / 2 ^ 30)) :
    (randomBits width e).1 = v := by
  rcases Nat.eq_zero_or_pos width with rfl | hpos
  · rw [(randomBits_none rfl e).1]
    omega
  rcases Nat.lt_or_ge 30 width with hgt | hle
  · have hhigh : v / 2 ^ 30 < 2 ^ (width - 30) := by
      rw [Nat.div_lt_iff_lt_mul (by decide), ← pow_add, Nat.sub_add_cancel hgt.le]
      exact hv
    have hsample : 2 ^ (width - 30) ≤ 2 ^ 30 := Nat.pow_le_pow_right (by decide) (by omega)
    rw [(randomBits_two hgt e).1, h0, h1, BitVec.toNat_ofNat, BitVec.toNat_ofNat,
      Nat.mod_eq_of_lt (hhigh.trans_le hsample), Nat.mod_eq_of_lt hhigh]
    exact Nat.mod_add_div' v (2 ^ 30)
  · have hsample : 2 ^ width ≤ 2 ^ 30 := Nat.pow_le_pow_right (by decide) hle
    rw [(randomBits_one hpos hle e).1, h0, BitVec.toNat_ofNat, Nat.mod_eq_of_lt (hv.trans_le hsample),
      Nat.mod_eq_of_lt hv]

/-- Settles O7: the two shapes of the draws, the bound, and for each value the two samples that give it. -/
theorem randomBitsComposesItsDraws : Obligations.RandomBitsComposesItsDraws := by
  intro width hw
  refine ⟨fun e h => randomBits_of_le h e, fun e h => ?two, fun e => randomBits_lt e, fun v hv => ?reached⟩
  case two =>
    rw [randomBits_of_gt h]
    exact ⟨rfl, rfl⟩
  case reached =>
    refine ⟨BitVec.ofNat 30 v, BitVec.ofNat 30 (v / 2 ^ 30), fun e rest he => ?_⟩
    obtain ⟨h0, h1⟩ := Env.drawAt_of_draws he
    exact randomBits_of_samples hw hv h0 h1

/-! ## Commands -/

/-- An integer result reads back as its value. -/
theorem be64_intResult {n : Nat} (h : n < 2 ^ 64) : (be64 (intResult n)).toNat = n := by
  rw [intResult, be64_be64Bytes, BitVec.toNat_ofNat, Nat.mod_eq_of_lt h]

/-- Settles O8: the response of `RNDBITS` reads back as the random integer, whose draws are known by its width. -/
theorem rndbitsAnswersARandomInteger : Obligations.RndbitsAnswersARandomInteger := by
  intro s p w hp hw
  have hlt := randomBits_lt (width := w.toNat) s.env
  have hread := be64_intResult (hlt.trans_le (Nat.pow_le_pow_right (by decide) (show w.toNat ≤ 64 by omega)))
  refine ⟨_, _, _, exec_rndbits hp hw, onlyIssuer_setIssuer hp s.v1 _ _, rfl, randomBits_sameClock _ _,
    sameRegs_reply p _ _, rfl, answered_reply p _ _, rfl, ?_⟩
  rw [hread]
  exact ⟨hlt, fun h0 => randomBits_none h0 s.env, fun h1 h30 => randomBits_one h1 h30 s.env,
    fun h => randomBits_two h s.env⟩

/-- What a command that takes a fault leaves: the response is the fault's status, which `FAULT` holds if it held
nothing, and nothing else changes. -/
theorem exec_takeFault_frame {s : State} {p : Port} {i : Instr} {f : CmdFault} (hp : s.issuer = some p)
    (hx : exec i s = .next (s.setIssuer (p.takeFault f))) :
    ∃ t q, exec i s = .next t ∧ OnlyIssuer s t q ∧ t.v1 = s.v1 ∧ t.env = s.env ∧ SameRegs p q
      ∧ Answered p q [statusOfFault f] ∧ q.fault = if p.fault = 0x00 then statusOfFault f else p.fault :=
  ⟨_, _, hx, onlyIssuer_setIssuer_self hp _, rfl, rfl, sameRegs_takeFault p f, answered_takeFault p f, rfl⟩

/-- Settles O9: the width is checked before any draw. -/
theorem rndbitsAboveItsRangeFaults : Obligations.RndbitsAboveItsRangeFaults :=
  fun _ _ _ hp hw => exec_takeFault_frame hp (exec_rndbits_range hp hw)

/-- Settles O10: inside its domain the response of `FMT` is the padded string. -/
theorem fmtAnswersThePaddedDigits : Obligations.FmtAnswersThePaddedDigits := by
  intro s p v l r hp h2 h36 h1 h128 hv
  have hfits := (digits_length_le_iff h2 h1).mpr hv
  exact ⟨_, _, _, exec_fmt hp h2 h36 h128 hfits, onlyIssuer_setIssuer_self hp _, rfl, rfl, sameRegs_reply p _ _, rfl,
    answered_reply p _ _, alignNumber_length h2 hfits, alignNumber_isDigitOf h2 h36 hfits,
    denoted_alignNumber h2 h36 hfits⟩

/-- No string has room for a value in length 0, and none for one that has reached the radix to the length. -/
theorem lt_digits_length {value length radix : Nat} (h2 : 2 ≤ radix) (h : length = 0 ∨ radix ^ length ≤ value) :
    length < (digits value radix).length := by
  rcases Nat.eq_zero_or_pos length with rfl | hpos
  · exact one_le_digits_length h2 value
  · have hv : radix ^ length ≤ value := h.resolve_left hpos.ne'
    rw [← not_le, digits_length_le_iff h2 hpos]
    exact Nat.not_lt.mpr hv

/-- Settles O11: the radix is checked first, then the length against its limit, then the digits against the length. -/
theorem fmtOutsideItsDomainFaults : Obligations.FmtOutsideItsDomainFaults := by
  rintro s p v l r hp status (⟨hr, rfl⟩ | ⟨h2, h36, hl, rfl⟩)
  · exact exec_takeFault_frame hp (exec_fmt_radix hp hr)
  · exact exec_takeFault_frame hp (exec_fmt_overflow hp h2 h36 (hl.imp_right (lt_digits_length h2)))

end Sys2Proof.Machine
end

section
/-! PROOF. The UUID value type (41_value_type.md): what a constructed value and its fields are (R80, R82, R94), that
the two strings are the digits of one 128-bit integer (R83 to R85), equality (R86), and what the commands on values
answer and write (R87 to R93). -/

namespace Sys2Proof.Machine

/-! ## Fields and equality -/

theorem equals_eq_false_iff (u v : UuidVal) : equals u v = false ↔ u ≠ v := by
  rw [Ne, ← equals_iff, Bool.not_eq_true]

/-- Settles O12: equality of values is identity, so a differing field breaks it; the text parses back to its value. -/
theorem constructedValuesBehave : Obligations.ConstructedValuesBehave := by
  refine ⟨fun a0 a1 a2 a3 a4 a5 => ⟨construct_timeLow .., construct_timeMid .., construct_timeHiAndVersion ..,
    construct_clockSeqHiAndReserved .., construct_clockSeqLow .., construct_node .., fieldInt_lt _,
    (equals_iff _ _).mpr rfl⟩, ?changed,
    fun u => ⟨hexString_length u, bitString_length u, parseText_hexString u⟩⟩
  case changed =>
    rintro u v ⟨i, hi⟩
    exact (equals_eq_false_iff u v).mpr fun h => hi (congrArg (fieldInt · i) h)

/-- A field fits in its hexadecimal digits: four bits each. -/
theorem fieldInt_lt_hex (u : UuidVal) (i : FieldIx) : fieldInt u i < 16 ^ (fieldWidth i / 4) := by
  have hw : 16 ^ (fieldWidth i / 4) = 2 ^ fieldWidth i := by cases i <;> rfl
  rw [hw]
  exact fieldInt_lt u i

theorem eq_of_isDigitOf_two {c : Byte} (h : IsDigitOf 2 c) : c = 0x30 ∨ c = 0x31 := by
  have hc : c.toNat = 0x30 ∨ c.toNat = 0x31 := by
    unfold IsDigitOf at h
    omega
  exact hc.imp BitVec.eq_of_toNat_eq BitVec.eq_of_toNat_eq

theorem fieldBin_isBit (u : UuidVal) (i : FieldIx) : ∀ c ∈ fieldBin u i, c = 0x30 ∨ c = 0x31 := by
  rw [fieldBin_eq]
  exact fun c hc => eq_of_isDigitOf_two (fixedDigits_isDigitOf (by decide) (by decide) _ _ c hc)

theorem denoted_fieldBin (u : UuidVal) (i : FieldIx) : denoted 2 (fieldBin u i) = fieldInt u i := by
  rw [fieldBin_eq, denoted_fixedDigits (by decide) (by decide), Nat.mod_eq_of_lt (fieldInt_lt u i)]

theorem denoted_fieldHex (u : UuidVal) (i : FieldIx) : denoted 16 (fieldHex u i) = fieldInt u i := by
  rw [fieldHex_eq, denoted_fixedDigits (by decide) (by decide), Nat.mod_eq_of_lt (fieldInt_lt_hex u i)]

/-- Settles O13: both strings are the fixed-width digits of the field, which fits in them. -/
theorem fieldRepresentationsAgree : Obligations.FieldRepresentationsAgree := fun u i =>
  ⟨fieldInt_lt u i, rfl, fieldBin_length u i, fieldBin_isBit u i, denoted_fieldBin u i, rfl, fieldHex_length u i,
    fieldHex_isLowerHex u i, denoted_fieldHex u i⟩

/-! ## The strings -/

/-- Putting bits behind a number shifts it up by their width. -/
theorem toNat_append_eq_mul_add {m n : Nat} (x : BitVec m) (y : BitVec n) :
    (x ++ y).toNat = x.toNat * 2 ^ n + y.toNat := by
  rw [BitVec.toNat_append, ← Nat.shiftLeft_add_eq_or_of_lt y.isLt, Nat.shiftLeft_eq]

/-- The six fields put together in field order are the 128-bit integer. -/
theorem toNat_fields_eq_pack128 (u : UuidVal) :
    (u.timeLow ++ u.timeMid ++ u.timeHiAndVersion ++ u.clockSeqHiAndReserved ++ u.clockSeqLow ++ u.node).toNat
      = pack128 u := by
  simp only [toNat_append_eq_mul_add, pack128_nested]

/-- Settles O14: the bit string is the binary digits of the 128-bit integer, whose bits are those of the six fields. -/
theorem bitStringShowsEveryBitInFieldOrder : Obligations.BitStringShowsEveryBitInFieldOrder := by
  refine fun u => ⟨rfl, bitString_length u, fun k hk => ?_⟩
  rw [← BitVec.testBit_toNat, toNat_fields_eq_pack128, bitString_eq, getD_fixedDigits_two (pack128 u) hk]

/-- The canonical string matches the pattern the parser accepts. -/
theorem matchesPattern_hexString (u : UuidVal) : matchesPattern (hexString u) = true := by
  rw [← parseText_isSome, parseText_hexString, Option.isSome_some]

/-- The canonical string is in lower case, being the lower-case form of the text it was parsed from: itself. -/
theorem map_lowerHex_hexString (u : UuidVal) : (hexString u).map lowerHex = hexString u :=
  (hexString_of_parseText (parseText_hexString u)).symm

theorem not_isUpperHex_hexString (u : UuidVal) : ∀ c ∈ hexString u, ¬ IsUpperHex c := fun c hc =>
  (lowerHex_eq_self_iff c).mp (List.map_inj_left.mp ((map_lowerHex_hexString u).trans (List.map_id _).symm) c hc)

theorem isHyphenPos_iff (k : Nat) : isHyphenPos k = true ↔ k = 8 ∨ k = 13 ∨ k = 18 ∨ k = 23 := by
  simp [isHyphenPos, or_assoc]

/-- Every character of the canonical string, by its place. -/
theorem getD_hexString (u : UuidVal) {k : Nat} (hk : k < 36) :
    if k = 8 ∨ k = 13 ∨ k = 18 ∨ k = 23 then (hexString u).getD k 0 = hyphen
      else IsLowerHex ((hexString u).getD k 0) := by
  obtain ⟨hlen, hplace⟩ := (matchesPattern_iff _).mp (matchesPattern_hexString u)
  have hc := hplace k hk
  simp only [isHyphenPos_iff] at hc
  split at hc
  case isTrue h => rwa [if_pos h]
  case isFalse h =>
    rw [if_neg h]
    exact ((isHexDigit_iff _).mp hc).resolve_right (not_isUpperHex_hexString u _ (getD_mem (hlen.symm ▸ hk)))

/-- Settles O15: the canonical string is six groups joined by hyphens, so it matches the parser's pattern and each
group stands at its place. -/
theorem hexStringHasTheCanonicalForm : Obligations.HexStringHasTheCanonicalForm := by
  intro u
  have hgroups := substr_joinGroups (groupsOk_fieldHex u)
  rw [← hexString_eq_joinGroups] at hgroups
  exact ⟨rfl, hexString_length u, fun k hk => getD_hexString u hk, hgroups⟩

/-! ## The 128-bit integer -/

theorem unpack128_eq_construct (x : Nat) :
    unpack128 x = construct (x / 2 ^ 96 % 2 ^ 32) (x / 2 ^ 80 % 2 ^ 16) (x / 2 ^ 64 % 2 ^ 16) (x / 2 ^ 56 % 2 ^ 8)
      (x / 2 ^ 48 % 2 ^ 8) (x % 2 ^ 48) := by
  obtain ⟨h0, h1, h2, h3, h4, h5⟩ := unpack128_fields x
  rw [← h0, ← h1, ← h2, ← h3, ← h4, ← h5, construct_self]

theorem unpack128_pack128 (u : UuidVal) : unpack128 (pack128 u) = u := by
  obtain ⟨h0, h1, h2, h3, h4, h5⟩ := pack128_slices u
  rw [unpack128_eq_construct, h0, h1, h2, h3, h4, h5, construct_self]

theorem pack128_unpack128 {x : Nat} (hx : x < 2 ^ 128) : pack128 (unpack128 x) = x := by
  obtain ⟨h0, h1, h2, h3, h4, h5⟩ := unpack128_fields x
  rw [pack128, h0, h1, h2, h3, h4, h5]
  omega

/-- Leaving out the hyphens leaves a group of hex digits whole. -/
theorem filter_ne_hyphen_fieldHex (u : UuidVal) (i : FieldIx) :
    (fieldHex u i).filter (fun c => c ≠ hyphen) = fieldHex u i := by
  refine List.filter_eq_self.mpr fun c hc => decide_eq_true ?_
  rintro rfl
  exact absurd (fieldHex_isLowerHex u i hyphen hc) (by unfold IsLowerHex; decide)

/-- The canonical string without its hyphens is the 32 hexadecimal digits of the 128-bit integer. -/
theorem filter_ne_hyphen_hexString (u : UuidVal) :
    (hexString u).filter (fun c => c ≠ hyphen) = fixedDigits 16 32 (pack128 u) := by
  have hhyphen : [hyphen].filter (fun c => c ≠ hyphen) = [] := rfl
  rw [← hexDigits_eq]
  simp only [hexString, List.filter_append, filter_ne_hyphen_fieldHex, hhyphen, List.append_nil]

/-- Settles O16: both strings are fixed-width digits of the 128-bit integer, and the slices of an integer below
`2^128` make it up. -/
theorem stringsAreTheDigitsOfThe128BitInteger : Obligations.StringsAreTheDigitsOfThe128BitInteger := by
  refine ⟨fun u => ⟨rfl, ?bits, ?hex, unpack128_pack128 u⟩,
    fun x hx => ⟨unpack128_eq_construct x, pack128_unpack128 hx⟩⟩
  case bits => rw [bitString_eq, alignNumber_of_lt (by decide) (by decide) (pack128_lt u)]
  case hex =>
    have hfits : pack128 u < 16 ^ 32 := pack128_lt u
    rw [alignNumber_of_lt (by decide) (by decide) hfits]
    exact filter_ne_hyphen_hexString u

/-! ## Equality -/

theorem pack128_injective : Function.Injective pack128 := Function.LeftInverse.injective unpack128_pack128

theorem hexString_injective : Function.Injective hexString := fun u v h =>
  Option.some.inj (by rw [← parseText_hexString u, h, parseText_hexString])

/-- Two values are the same exactly when their six integers are. -/
theorem uuid_eq_iff (u v : UuidVal) :
    u = v ↔ u.timeLow = v.timeLow ∧ u.timeMid = v.timeMid ∧ u.timeHiAndVersion = v.timeHiAndVersion
      ∧ u.clockSeqHiAndReserved = v.clockSeqHiAndReserved ∧ u.clockSeqLow = v.clockSeqLow ∧ u.node = v.node := by
  cases u
  cases v
  exact Iff.of_eq (UuidVal.mk.injEq ..)

/-- Settles O17: `Equals` is identity of values, and both the 128-bit integer and the canonical string determine the
value. -/
theorem equalityComparesTheSixIntegers : Obligations.EqualityComparesTheSixIntegers := by
  unfold Obligations.EqualityComparesTheSixIntegers
  simp only [equals_iff]
  exact ⟨fun u v => ⟨uuid_eq_iff u v, pack128_injective.eq_iff.symm, hexString_injective.eq_iff.symm⟩,
    fun _ => trivial, fun _ _ => Eq.symm, fun _ _ _ => Eq.trans⟩

/-! ## Commands -/

/-- What a command that only answers leaves: one response more, and nothing else changed. -/
theorem exec_reply_frame {s : State} {p : Port} {i : Instr} {st : Byte} {pl : List Byte} (hp : s.issuer = some p)
    (hx : exec i s = .next (s.setIssuer (p.reply st pl))) :
    ∃ t q, exec i s = .next t ∧ OnlyIssuer s t q ∧ t.v1 = s.v1 ∧ t.env = s.env ∧ SameRegs p q ∧ q.fault = p.fault
      ∧ Answered p q (st :: pl) :=
  ⟨_, _, hx, onlyIssuer_setIssuer_self hp _, rfl, rfl, sameRegs_reply p st pl, rfl, answered_reply p st pl⟩

/-- Eight bytes are the integer result of the number they read back as. -/
theorem eq_intResult_of_be64 {pl : List Byte} {n : Nat} (hl : pl.length = 8) (hn : (be64 pl).toNat = n) :
    pl = intResult n := by
  rw [intResult, ← hn, BitVec.ofNat_toNat, BitVec.setWidth_eq, be64Bytes_be64_take hl.ge, List.take_of_length_le hl.le]

/-- The version nibble as a byte is the top four bits of the third field. -/
theorem version_byte (u : UuidVal) : (version u).setWidth 8 = BitVec.ofNat 8 (u.timeHiAndVersion.toNat / 4096) := by
  apply BitVec.eq_of_toNat_eq
  have hlt := u.timeHiAndVersion.isLt
  simp only [version, BitVec.toNat_setWidth, BitVec.extractLsb'_toNat, Nat.shiftRight_eq_div_pow, BitVec.toNat_ofNat]
  omega

/-- Settles O19: each of the commands answers what it reads. -/
theorem readCommandsAnswerAPresentSubject : Obligations.ReadCommandsAnswerAPresentSubject := by
  rintro s p r u hp hu i pl
    (⟨rfl, rfl⟩ | ⟨rfl, rfl⟩ | ⟨rfl, rfl⟩ | ⟨f, rfl, hlen, hval⟩ | ⟨f, rfl, rfl⟩ | ⟨f, rfl, rfl⟩)
  · exact exec_reply_frame hp (exec_tostr hp hu)
  · rw [← version_byte]
    exact exec_reply_frame hp (exec_rdver hp hu)
  · exact exec_reply_frame hp (exec_rdbits hp hu)
  · rw [eq_intResult_of_be64 hlen hval]
    exact exec_reply_frame hp (exec_rdf hp hu f .int)
  · exact exec_reply_frame hp (exec_rdf hp hu f .bin)
  · exact exec_reply_frame hp (exec_rdf hp hu f .hex)

/-- Settles O20: the payload byte is 0x01 exactly where the second register holds the same value. -/
theorem eqAnswersFieldwiseEquality : Obligations.EqAnswersFieldwiseEquality := by
  intro s p a b u hp hu
  rw [← eqByte_eq]
  exact exec_reply_frame hp (exec_eq hp hu b)

/-- Settles O21: the subject register is looked at first. -/
theorem absentSubjectFaults : Obligations.AbsentSubjectFaults :=
  fun _ _ _ hp hu _ hi => exec_takeFault_frame hp (exec_absent hp hu hi)

/-- Settles O18: `INIT` writes the value constructed from its operands. -/
theorem initWritesItsMaskedOperands : Obligations.InitWritesItsMaskedOperands := by
  intro s p d a hp
  exact ⟨_, _, initValue a, exec_init hp d a, onlyIssuer_setIssuer_self hp _, rfl, rfl,
    by rw [Port.reply_getU, Port.getU_setU_self], sameRegsBut_setU_reply p d _ _ _,
    by rw [Port.reply_fault, Port.setU_fault], answered_setU_reply p d _ _ _, construct_timeLow ..,
    construct_timeMid .., construct_timeHiAndVersion .., construct_clockSeqHiAndReserved .., construct_clockSeqLow ..,
    construct_node ..⟩

/-- A command's effect leaves every register but its destination alone. -/
theorem Effect.getU_of_not_dest {i : Instr} {s : State} {p w : Port} {v : V1State} {e : Env} {st : Byte}
    {pl : List Byte} (h : Effect i s p v e w st pl) {r : UReg} (hr : destOf i ≠ some r) : w.getU r = p.getU r := by
  cases hd : destOf i with
  | none => rw [h.keep hd]
  | some d =>
    obtain ⟨u, rfl, -⟩ := h.dest d hd
    exact Port.getU_setU_of_ne p u fun hrd => hr (by rw [hd, hrd])

/-- A command's effect leaves its destination absent only where the command is `PARSE`. -/
theorem Effect.parse_of_dest_absent {i : Instr} {s : State} {p w : Port} {v : V1State} {e : Env} {st : Byte}
    {pl : List Byte} (h : Effect i s p v e w st pl) {r : UReg} (hr : destOf i = some r) (hn : w.getU r = none) :
    ∃ text, i = .parse r text := by
  obtain ⟨u, rfl, hparse⟩ := h.dest r hr
  rw [Port.getU_setU_self] at hn
  exact hparse hn

/-- Settles O22: a fault writes no register, and is taken by no command that has a destination; the effect of a command
says the rest. -/
theorem onlyConstructingCommandsWriteRegisters : Obligations.OnlyConstructingCommandsWriteRegisters := by
  intro i s t p hp ht
  rcases exec_cases hp i with ⟨f, hx, hd, -⟩ | ⟨v, e, w, st, pl, hx, ef⟩ <;> rw [hx] at ht <;> cases ht
  · refine ⟨_, onlyIssuer_setIssuer_self hp _, fun r _ => p.takeFault_getU f r, fun r hr => ?_⟩
    rw [hd] at hr
    cases hr
  · refine ⟨_, onlyIssuer_setIssuer hp v e _, fun r hr => ?kept, fun r hr hn => ?absent⟩
    case kept => rw [Port.reply_getU, ef.getU_of_not_dest hr]
    case absent =>
      rw [Port.reply_getU] at hn
      exact ef.parse_of_dest_absent hr hn

end Sys2Proof.Machine
end

section
/-! PROOF. The version-4 generator (42_gen_v4.md): the draws `GenV4` takes and the fields it makes of them (R100), and
what `GENV4` writes and leaves unchanged (R101, R102). -/

namespace Sys2Proof.Machine

/-- Settles O23: the six random integers are followed in field order, each starting at the draw where the one before
ended; every one fits its field, and the tags stand above the bits of the third and the fourth. -/
theorem genV4DrawsInFieldOrder : Obligations.GenV4DrawsInFieldOrder := by
  intro e
  obtain ⟨v0, took2⟩ := randomBits_two_after (TookDraws.zero e) (width := 32) (by decide)
  obtain ⟨v1, took3⟩ := randomBits_one_after took2 (width := 16) (by decide) (by decide)
  obtain ⟨v2, took4⟩ := randomBits_one_after took3 (width := 12) (by decide) (by decide)
  obtain ⟨v3, took5⟩ := randomBits_one_after took4 (width := 6) (by decide) (by decide)
  obtain ⟨v4, took6⟩ := randomBits_one_after took5 (width := 8) (by decide) (by decide)
  obtain ⟨v5, took8⟩ := randomBits_two_after took6 (width := 48) (by decide)
  refine ⟨?_, genV4_sameClock e, ?_, ?_, ?_, ?_, ?_, ?_⟩
  · rw [genV4]
    exact took8
  · rw [genV4, construct_timeLow, Nat.mod_eq_of_lt (randomBits_lt _), v0]
  · rw [genV4, construct_timeMid, Nat.mod_eq_of_lt (randomBits_lt _), v1]
  · rw [genV4, construct_timeHiAndVersion, or_version4Tag (randomBits_lt _), v2, Nat.mod_eq_of_lt (by omega)]
  · rw [genV4, construct_clockSeqHiAndReserved, or_variantTag (randomBits_lt _), v3, Nat.mod_eq_of_lt (by omega)]
  · rw [genV4, construct_clockSeqLow, Nat.mod_eq_of_lt (randomBits_lt _), v4]
  · rw [genV4, construct_node, Nat.mod_eq_of_lt (randomBits_lt _), v5]

theorem genV4_tookDraws (e : Env) : TookDraws 8 e (genV4 e).2 := (genV4DrawsInFieldOrder e).1

theorem version_genV4 (e : Env) : version (genV4 e).1 = 4 := by
  obtain ⟨-, -, -, -, hver, -⟩ := genV4DrawsInFieldOrder e
  exact version_of_tagged (k := 4) hver (Nat.mod_lt _ (by decide))

theorem variant_genV4 (e : Env) : (genV4 e).1.clockSeqHiAndReserved.extractLsb' 6 2 = 0b10 := by
  obtain ⟨-, -, -, -, -, hvar, -⟩ := genV4DrawsInFieldOrder e
  exact variant_of_tagged hvar (Nat.mod_lt _ (by decide))

/-- Settles O24: `GENV4` writes the value `GenV4` makes, whose third and fourth field carry the tags. -/
theorem genv4WritesAVersion4Uuid : Obligations.Genv4WritesAVersion4Uuid := by
  intro s p d hp
  exact ⟨_, _, (genV4 s.env).1, exec_genv4 hp d, onlyIssuer_setIssuer hp s.v1 _ _, rfl, genV4_tookDraws s.env,
    genV4_sameClock s.env, by rw [Port.reply_getU, Port.getU_setU_self], sameRegsBut_setU_reply p d _ _ _,
    by rw [Port.reply_fault, Port.setU_fault], answered_setU_reply p d _ _ _, rfl, version_genV4 s.env,
    variant_genV4 s.env, parseText_hexString _⟩

end Sys2Proof.Machine
end

section
/-! PROOF. The version-1 generator (43_gen_v1.md): the split of the 60-bit count (R107), the clock-sequence fields
(R109), and what `V1INIT` (R106) and `GENV1` (R108, R110 to R113) write and leave unchanged. -/

namespace Sys2Proof.Machine

/-! ## The time fields and the clock-sequence fields -/

theorem t60_eq (ms : Nat) : t60 ms = ((ms + 12219292800000) * 10000) % 2 ^ 60 := rfl

/-- The three groups of a version-1 time are the 60-bit count cut in three. -/
theorem timeFields_sum (ms : Nat) :
    timeFieldLow ms + timeFieldMid ms * 2 ^ 32 + timeFieldHigh ms * 2 ^ 48 = t60 ms := by
  have hlt : t60 ms < 2 ^ 60 := Nat.mod_lt _ (by decide)
  rw [timeFieldLow, timeFieldMid, timeFieldHigh]
  omega

/-- Settles O26: the groups sum to the count modulo 2^60, which is the count itself exactly while it is below 2^60. -/
theorem timeFieldsSplitThe60BitCount : Obligations.TimeFieldsSplitThe60BitCount := by
  refine ⟨fun ms _ => ?split, rfl, rfl, rfl⟩
  rw [timeFields_sum, t60_eq]
  exact ⟨Nat.mod_lt _ (by decide), Nat.mod_lt _ (by decide), timeFieldHigh_lt ms, rfl,
    fun hfits => Nat.mod_eq_of_lt (by omega), fun hwraps => by omega⟩

/-- Settles O28: the high group is below 64, so the tag stands above it and masking it off gives the group back. -/
theorem clockSequenceIsRecoverable : Obligations.ClockSequenceIsRecoverable := by
  intro seq
  have hlt := seq.isLt
  rw [and_low6, clockSeqHi_eq, clockSeqLo_eq]
  refine ⟨rfl, rfl, ?_⟩
  omega

/-! ## `V1INIT` -/

/-- The state made ready where none exists: three draws, time and `tick` 0, sequence and node of the draws. -/
theorem v1Ready_created {v : V1State} (h : v.inited = false) (e : Env) :
    ∃ r f, v1Ready v e = (r, f) ∧ TookDraws 3 e f ∧ r.timestamp = 0 ∧ r.tick = 0
      ∧ r.sequence.toNat = (e.drawAt 0).toNat % 2 ^ 14
      ∧ r.node = BitVec.ofNat 48 ((e.drawAt 1).toNat + ((e.drawAt 2).toNat % 2 ^ 18) * 2 ^ 30) ||| 1 := by
  obtain ⟨hdraws, -, hseq, hnode⟩ := v1Init_spec e
  exact ⟨(v1Init e).1, (v1Init e).2, (v1Ready_not_inited h e).trans Prod.mk.eta.symm, hdraws, v1Init_timestamp e,
    v1Init_tick e, hseq, hnode⟩

/-- Settles O25: where `V1` exists nothing is drawn, and where it does not `V1Init` takes its three draws. -/
theorem v1initCreatesTheGeneratorStateOnce : Obligations.V1initCreatesTheGeneratorStateOnce := by
  intro s p hp
  refine ⟨_, _, exec_v1init hp, onlyIssuer_setIssuer hp _ _ _, sameRegs_reply p _ _, rfl, answered_reply p _ _,
    v1Ready_sameClock _ _, v1Ready_fst_inited _ _, fun hi => ?kept, fun hi => ?created⟩
  case kept =>
    rw [State.setIssuer_v1, State.setIssuer_env, v1Ready_inited hi]
    exact ⟨rfl, rfl⟩
  case created =>
    obtain ⟨r, f, ready, hdraws, hts, htick, hseq, hnode⟩ := v1Ready_created hi s.env
    rw [State.setIssuer_v1, State.setIssuer_env, ready]
    exact ⟨hdraws, hts, htick, hseq, hnode, by rw [hnode, getLsbD_zero_or_one]⟩

/-! ## `GENV1` -/

section Genv1
variable {s t : State} {p q : Port} {d : UReg}

/-- The state a `GENV1` leaves, and the inputs it leaves, are those of `genV1State`. -/
theorem genv1_v1_env (ht : exec (.genv1 d) s = .next t) : (t.v1, t.env) = genV1State s.v1 s.env := by
  obtain ⟨p, hp⟩ := issuer_of_exec_next ht
  rw [exec_genv1 hp] at ht
  cases ht
  rfl

/-- What a `GENV1` leaves whatever the case: a state that exists, its time the clock sample, its node the ready
state's. -/
theorem genv1_v1 (ht : exec (.genv1 d) s = .next t) :
    t.v1.inited = true ∧ t.v1.timestamp = s.sample ∧ t.v1.node = (v1Ready s.v1 s.env).1.node := by
  obtain ⟨hv, -⟩ := Prod.ext_iff.mp (genv1_v1_env ht)
  obtain ⟨hi, hts, hnode, -⟩ := genV1State_spec s.v1 s.env
  rw [← hv] at hi hts hnode
  exact ⟨hi, hts, hnode⟩

/-- The value a `GENV1` writes is formed from the state it leaves. -/
theorem genv1_getU (ht : exec (.genv1 d) s = .next t) (hq : t.issuer = some q) : q.getU d = some (v1Uuid t.v1) := by
  obtain ⟨p, hp⟩ := issuer_of_exec_next ht
  rw [exec_genv1 hp] at ht
  cases ht
  have hq' := (onlyIssuer_setIssuer hp _ _ _).issuer.symm.trans hq
  cases hq'
  rw [Port.reply_getU, Port.getU_setU_self, State.setIssuer_v1]

/-! The four cases of R108, where `r` is the state made ready for the arbiter and `n` draws were taken for it. -/

variable {r : V1State} {f : Env} {n : Nat}

/-- A `GENV1` is the clock arbiter on its sample and the ready state, after the draws that make the state ready. -/
theorem genv1_clockArbiter (ht : exec (.genv1 d) s = .next t) (hr : v1Ready s.v1 s.env = (r, f))
    (hf : TookDraws n s.env f) :
    ∃ g, TookDraws n s.env g ∧ (t.v1, t.env) = clockArbiter s.sample r g := by
  rw [genv1_v1_env ht, genV1State_eq, hr]
  exact ⟨{ f with clocks := s.env.clocks.tail, sampled := s.env.sampled + 1 }, hf, rfl⟩

/-- ADVANCE. -/
theorem genv1_advance (ht : exec (.genv1 d) s = .next t) (hr : v1Ready s.v1 s.env = (r, f)) (hf : TookDraws n s.env f)
    (hlt : r.timestamp.toNat < s.sample.toNat) :
    t.v1 = { r with timestamp := s.sample, tick := 0 } ∧ TookDraws n s.env t.env := by
  obtain ⟨g, hg, harb⟩ := genv1_clockArbiter ht hr hf
  obtain ⟨hv, he⟩ := Prod.mk.inj (harb.trans (clockArbiter_advance hlt g))
  exact ⟨hv, he ▸ hg⟩

/-- REGRESS. -/
theorem genv1_regress (ht : exec (.genv1 d) s = .next t) (hr : v1Ready s.v1 s.env = (r, f)) (hf : TookDraws n s.env f)
    (hlt : s.sample.toNat < r.timestamp.toNat) :
    t.v1 = { r with timestamp := s.sample, tick := 0, sequence := r.sequence + 1 } ∧ TookDraws n s.env t.env := by
  obtain ⟨g, hg, harb⟩ := genv1_clockArbiter ht hr hf
  obtain ⟨hv, he⟩ := Prod.mk.inj (harb.trans (clockArbiter_regress hlt g))
  exact ⟨hv, he ▸ hg⟩

/-- TICK. -/
theorem genv1_tick (ht : exec (.genv1 d) s = .next t) (hr : v1Ready s.v1 s.env = (r, f)) (hf : TookDraws n s.env f)
    (heq : s.sample = r.timestamp) (hc : (s.env.drawAt n).toNat % 8 = 0) (htick : r.tick.toNat < 9999) :
    t.v1 = { r with tick := r.tick + 1 } ∧ TookDraws (n + 1) s.env t.env := by
  obtain ⟨g, hg, harb⟩ := genv1_clockArbiter ht hr hf
  have hcoin : g.drawAt 0 = s.env.drawAt n := hg.drawAt 0
  rw [heq] at harb
  obtain ⟨hv, he⟩ := Prod.mk.inj (harb.trans (clockArbiter_tick (hcoin ▸ hc) htick))
  exact ⟨hv, he ▸ hg.trans (Env.draw_tookDraws (by decide) g)⟩

/-- SEQ. -/
theorem genv1_seq (ht : exec (.genv1 d) s = .next t) (hr : v1Ready s.v1 s.env = (r, f)) (hf : TookDraws n s.env f)
    (heq : s.sample = r.timestamp) (hc : (s.env.drawAt n).toNat % 8 ≠ 0 ∨ 9999 ≤ r.tick.toNat) :
    t.v1 = { r with sequence := r.sequence + 1 } ∧ TookDraws (n + 1) s.env t.env := by
  obtain ⟨g, hg, harb⟩ := genv1_clockArbiter ht hr hf
  have hcoin : g.drawAt 0 = s.env.drawAt n := hg.drawAt 0
  rw [heq] at harb
  obtain ⟨hv, he⟩ := Prod.mk.inj (harb.trans (clockArbiter_seq (hcoin ▸ hc)))
  exact ⟨hv, he ▸ hg.trans (Env.draw_tookDraws (by decide) g)⟩

end Genv1

/-- Incrementing a `tick` below its bound does not wrap. -/
theorem tick_succ {tick : BitVec 14} (h : tick.toNat < 9999) : (tick + 1).toNat = tick.toNat + 1 := by
  have hone : (1 : BitVec 14).toNat = 1 := rfl
  rw [BitVec.toNat_add, hone, Nat.mod_eq_of_lt (by omega)]

/-- Settles O27: an initialised state is ready as it is, with no draw taken before the arbiter. -/
theorem clockArbiterHasFourCases : Obligations.ClockArbiterHasFourCases := by
  intro s t p d _ hi ht
  have ready := v1Ready_inited hi s.env
  have noDraw := TookDraws.zero s.env
  refine ⟨fun hlt => genv1_advance ht ready noDraw hlt, fun hlt => ?regress, fun heq hc htick => ?tick,
    fun heq hc => ?seq⟩
  case regress =>
    obtain ⟨hv, htook⟩ := genv1_regress ht ready noDraw hlt
    rw [hv]
    exact ⟨rfl, seq_succ _, htook⟩
  case tick =>
    obtain ⟨hv, htook⟩ := genv1_tick ht ready noDraw heq hc htick
    rw [hv]
    exact ⟨rfl, tick_succ htick, htook⟩
  case seq =>
    obtain ⟨hv, htook⟩ := genv1_seq ht ready noDraw heq hc
    rw [hv]
    exact ⟨rfl, seq_succ _, htook⟩

/-- Settles O30: the arbiter starts from the state `V1Init` creates, whose time and `tick` are 0, after its three draws;
so a sample above 0 is ADVANCE, and at 0 the coin, drawn fourth, chooses TICK or SEQ. -/
theorem firstGenv1CreatesTheGeneratorState : Obligations.FirstGenv1CreatesTheGeneratorState := by
  intro s t p d _ hi ht
  obtain ⟨r, f, ready, three, hts, htick, hseq, hnode⟩ := v1Ready_created hi s.env
  obtain ⟨-, -, hkept⟩ := genv1_v1 ht
  rw [ready] at hkept
  have hts0 : r.timestamp.toNat = 0 := by rw [hts]; rfl
  refine ⟨hkept.trans hnode, fun hne => ?advance, fun h0 hc => ?tick, fun h0 hc => ?seq⟩
  case advance =>
    obtain ⟨hv, htook⟩ := genv1_advance ht ready three (by omega)
    rw [hv]
    exact ⟨hseq, rfl, htook⟩
  case tick =>
    have heq := BitVec.eq_of_toNat_eq (h0.trans hts0.symm)
    obtain ⟨hv, htook⟩ := genv1_tick ht ready three heq hc (by rw [htick]; decide)
    rw [hv]
    exact ⟨hseq, by rw [htick]; rfl, htook⟩
  case seq =>
    have heq := BitVec.eq_of_toNat_eq (h0.trans hts0.symm)
    obtain ⟨hv, htook⟩ := genv1_seq ht ready three heq (.inl hc)
    rw [hv]
    exact ⟨by rw [seq_succ, hseq], htick, htook⟩

/-- Bit 0 of the node is 1 in the state made ready for a `GENV1`: by the invariant where `V1` exists, by `V1Init` where
it does not. -/
theorem v1Ready_node_bit {v : V1State} (h : v.Inv ∨ v.inited = false) (e : Env) :
    (v1Ready v e).1.node.getLsbD 0 = true := by
  have hinv : v.Inv := h.elim id fun hi ht => absurd ht (by simp [hi])
  obtain ⟨-, -, hbit, -⟩ := v1Ready_inv hinv e (v1Ready_fst_inited v e)
  exact hbit

theorem version_v1Uuid (v : V1State) : version (v1Uuid v) = 1 := by
  obtain ⟨-, -, hver, -⟩ := v1Uuid_fields v
  exact version_of_tagged (k := 1) (by rw [hver]) (timeFieldHigh_lt _)

theorem variant_v1Uuid (v : V1State) : (v1Uuid v).clockSeqHiAndReserved.extractLsb' 6 2 = 0b10 := by
  obtain ⟨-, -, -, hvar, -⟩ := v1Uuid_fields v
  exact variant_of_tagged hvar (by have := v.sequence.isLt; omega)

/-- Settles O29: `GENV1` writes the value formed from the state that its ready state and the clock arbiter leave. -/
theorem genv1WritesAVersion1Uuid : Obligations.Genv1WritesAVersion1Uuid := by
  intro s p d hp
  obtain ⟨hinited, hts, hnode, hclocks, hsampled, hpicks, hpicked, -⟩ := genV1State_spec s.v1 s.env
  obtain ⟨hlow, hmid, hhigh, -, -, hunode⟩ := v1Uuid_fields (genV1State s.v1 s.env).1
  change _ = s.sample at hts
  rw [hts] at hlow hmid hhigh
  have hbit (h : s.v1.Inv ∨ s.v1.inited = false) : (v1Uuid (genV1State s.v1 s.env).1).node.getLsbD 0 = true := by
    rw [hunode, hnode, v1Ready_node_bit h]
  exact ⟨_, _, v1Uuid (genV1State s.v1 s.env).1, exec_genv1 hp d, onlyIssuer_setIssuer hp _ _ _,
    by rw [Port.reply_getU, Port.getU_setU_self], sameRegsBut_setU_reply p d _ _ _,
    by rw [Port.reply_fault, Port.setU_fault], answered_setU_reply p d _ _ _, hclocks, hsampled, hpicks, hpicked,
    hinited, hts, fun hi => hnode.trans (by rw [v1Ready_inited hi]), hlow, hmid, hhigh, version_v1Uuid _,
    variant_v1Uuid _, v1Uuid_sequence _, hunode, parseText_hexString _, fun h => hbit (.inl h), fun h => hbit (.inr h),
    genV1State_draws s.v1 s.env⟩

/-- The clock-sequence fields of a value determine the sequence of the state it was formed from. -/
theorem sequence_eq_of_clockSeqFields {v w : V1State}
    (h : ((v1Uuid v).clockSeqHiAndReserved, (v1Uuid v).clockSeqLow)
      = ((v1Uuid w).clockSeqHiAndReserved, (v1Uuid w).clockSeqLow)) :
    v.sequence.toNat = w.sequence.toNat := by
  obtain ⟨hhi, hlo⟩ := Prod.mk.inj h
  rw [← v1Uuid_sequence v, hhi, hlo, v1Uuid_sequence]

/-- Settles O31: the first `GENV1` stores its sample, so the second is the REGRESS case; were the fields equal, so would
be the two sequences. -/
theorem regressionAdvancesTheSequence : Obligations.RegressionAdvancesTheSequence := by
  intro s t s' t' p p' q q' d d' u u' _ ht hq hu hv hp' ht' hq' hu' hlt
  obtain ⟨hinited, hts, -⟩ := genv1_v1 ht
  have hback : s'.sample.toNat < s'.v1.timestamp.toNat := by rwa [hv, hts]
  obtain ⟨-, hregress, -⟩ := clockArbiterHasFourCases s' t' p' d' hp' (by rw [hv, hinited]) ht'
  obtain ⟨-, hseq, -⟩ := hregress hback
  rw [hv] at hseq
  refine ⟨hseq, fun hfields => ?_⟩
  rw [genv1_getU ht hq] at hu
  rw [genv1_getU ht' hq'] at hu'
  cases hu
  cases hu'
  have hsame := sequence_eq_of_clockSeqFields hfields
  omega

end Sys2Proof.Machine
end

section
/-! PROOF. The canonical-text parser (44_parser.md): which texts it accepts (R120), what a string of hex digits denotes
(R121), that parsing and printing invert each other (R124), and what `PARSE` (R123) writes and leaves unchanged. -/

namespace Sys2Proof.Machine

/-! ## The canonical pattern -/

/-- Settles O32: the pattern says of every place below 36 which character stands there, by cases on whether the place is
one of the four hyphens'. -/
theorem parserAcceptsExactlyTheCanonicalPattern : Obligations.ParserAcceptsExactlyTheCanonicalPattern := by
  intro s
  rw [parseText_isSome, matchesPattern_iff]
  simp only [isHyphenPos_iff, isHexDigit_iff]
  refine and_congr_right fun _ => ⟨fun hplace => ?places, fun ⟨h8, h13, h18, h23, hhex⟩ k hk => ?pattern⟩
  case places =>
    refine ⟨hplace 8 (by decide), hplace 13 (by decide), hplace 18 (by decide), hplace 23 (by decide),
      fun k hk n8 n13 n18 n23 => ?_⟩
    have hc := hplace k hk
    rwa [if_neg (by omega)] at hc
  case pattern =>
    split
    next hhyphen => rcases hhyphen with rfl | rfl | rfl | rfl <;> assumption
    next hother => exact hhex k hk (by omega) (by omega) (by omega) (by omega)

/-! ## The integer a string of hex digits denotes -/

theorem hexVal_of_decimal {c : Byte} (h : c.toNat ≤ 0x39) : hexVal c = c.toNat - 0x30 := if_pos h

theorem hexVal_of_upper {c : Byte} (h : IsUpperHex c) : hexVal c = c.toNat - 0x41 + 10 := by
  obtain ⟨hA, hF⟩ := h
  rw [hexVal, if_neg (by omega), if_pos hF]

theorem hexVal_of_lower {c : Byte} (h : 0x61 ≤ c.toNat) : hexVal c = c.toNat - 0x61 + 10 := by
  rw [hexVal, if_neg (by omega), if_neg (by omega)]

/-- One more digit at the right moves the digits before it up by one place. -/
theorem hexInt_concat (t : Text) (c : Byte) : hexInt (t ++ [c]) = hexInt t * 16 + hexVal c := by
  rw [hexInt, List.foldl_append]
  rfl

/-- The integer is the sum of the values of the characters, each times the power of 16 of its place. -/
theorem hexInt_eq_sum (t : Text) :
    hexInt t = ((List.range t.length).map fun i => hexVal (t.getD i 0) * 16 ^ (t.length - 1 - i)).sum := by
  induction t using List.reverseRecOn with
  | nil => rfl
  | append_singleton t c ih =>
    have hlast : (t ++ [c]).getD t.length 0 = c := by
      rw [getD_append_ge t [c] le_rfl, Nat.sub_self, List.getD_cons_zero]
    have hplace : ∀ i ∈ List.range t.length,
        hexVal ((t ++ [c]).getD i 0) * 16 ^ (t.length - i) = hexVal (t.getD i 0) * 16 ^ (t.length - 1 - i) * 16 := by
      intro i hi
      have hlt := List.mem_range.mp hi
      rw [getD_append_lt t [c] hlt, Nat.mul_assoc, ← Nat.pow_succ]
      congr 2
      omega
    rw [hexInt_concat, ih, List.length_append, List.length_singleton, Nat.add_sub_cancel, List.sum_range_succ,
      List.map_congr_left hplace, List.sum_map_mul_right, hlast, Nat.sub_self, Nat.pow_zero, Nat.mul_one]

/-- Settles O33: by induction on the string from its right end; the value of a character by its range. -/
theorem hexIntSumsItsDigitsByPlace : Obligations.HexIntSumsItsDigitsByPlace := fun t _ _ =>
  ⟨hexInt_eq_sum t, fun _ _ =>
    ⟨fun h => hexVal_of_decimal h.2, fun h => hexVal_of_lower h.1, fun h => hexVal_of_upper h⟩⟩

/-! ## Parsing and printing -/

theorem map_lowerHex_eq_self_iff (t : Text) : t.map lowerHex = t ↔ ∀ c ∈ t, ¬ IsUpperHex c := by
  have hpointwise : t.map lowerHex = t.map id ↔ ∀ c ∈ t, lowerHex c = c := List.map_inj_left
  simpa only [List.map_id, lowerHex_eq_self_iff] using hpointwise

/-- Settles O34: the canonical string of a parsed text is the text in lower case, which lower-casing leaves alone
exactly when it has no upper-case digit. -/
theorem parsingInvertsPrinting : Obligations.ParsingInvertsPrinting := by
  refine ⟨parseText_hexString, fun s u hs => ?_⟩
  rw [hexString_of_parseText hs]
  exact ⟨rfl, map_lowerHex_eq_self_iff s⟩

/-! ## `PARSE` -/

theorem parseStatus_some (u : UuidVal) : parseStatus (some u) = 0x00 := rfl

theorem parseStatus_none : parseStatus none = 0x01 := rfl

/-- Settles O35: by the equation of `PARSE`; its status is that of the result. -/
theorem parseWritesItsResultPresentOrAbsent : Obligations.ParseWritesItsResultPresentOrAbsent := by
  intro s p d text hp
  have hanswer := answered_setU_reply p d (parseText text) (parseStatus (parseText text)) []
  refine ⟨_, _, exec_parse hp d text, onlyIssuer_setIssuer_self hp _, rfl, rfl,
    by rw [Port.reply_getU, Port.getU_setU_self], sameRegsBut_setU_reply p d _ _ _,
    by rw [Port.reply_fault, Port.setU_fault], fun u hu => ?ok, fun hnone => ?absent⟩
  case ok => rwa [hu, parseStatus_some] at hanswer ⊢
  case absent => rwa [hnone, parseStatus_none] at hanswer ⊢

end Sys2Proof.Machine
end

section
/-! PROOF. Exceptions (60_exceptions.md): a fault is precise (R131, R132), nothing stops the block (R135), and a command
learns nothing of another port (R140). -/

namespace Sys2Proof.Machine

/-! ## Precise faults -/

/-- The status of a command's effect is `OK` or `ABSENT`, so it has bit 7 clear: a fault's status is never among them. -/
theorem Effect.status_msb {i : Instr} {s : State} {p w : Port} {v : V1State} {e : Env} {st : Byte} {pl : List Byte}
    (h : Effect i s p v e w st pl) : st.msb = false := by
  rcases h.status with rfl | ⟨rfl, -⟩ <;> decide

/-- A step whose response has bit 7 of its status set took a fault, and that response is the fault's status alone. -/
theorem step_takeFault_of_msb {s s1 t : State} {pkt : Packet} {p q : Port} {status : Byte} {payload : List Byte}
    (hr : s.resetReq = false) (hf : s.fetch = some (pkt, s1)) (hp : s1.issuer = some p) (ht : step s = .next t)
    (hq : t.issuer = some q) (hresp : q.responses = p.responses ++ [status :: payload]) (hmsb : status.msb = true) :
    ∃ f, t = s1.setIssuer (p.takeFault f) ∧ q = p.takeFault f ∧ status = statusOfFault f ∧ payload = [] := by
  rcases step_cases hr hf hp ht with ⟨f, rfl⟩ | ⟨i, v, e, w, st, pl, -, rfl, ef⟩
  case inl =>
    obtain rfl : p.takeFault f = q := Option.some.inj ((State.issuer_setIssuer hp _).symm.trans hq)
    rw [Port.takeFault_responses] at hresp
    cases List.append_cancel_left hresp
    exact ⟨f, rfl, rfl, rfl, rfl⟩
  case inr =>
    obtain rfl : w.reply st pl = q :=
      Option.some.inj ((State.issuer_setIssuer (s := { s1 with v1 := v, env := e }) hp _).symm.trans hq)
    obtain ⟨-, hkept, -⟩ := ef.port
    rw [Port.reply_responses, hkept] at hresp
    cases List.append_cancel_left hresp
    rw [ef.status_msb] at hmsb
    cases hmsb

/-- Settles O36: the step took a fault, whose frame is that of one write to the issuing port; the hand-over of the
packet took no draw and no clock sample. -/
theorem faultingCommandsArePrecise : Obligations.FaultingCommandsArePrecise := by
  intro s s1 t pkt p q status payload hr hf hp ht hq hresp hmsb
  obtain ⟨f, rfl, rfl, rfl, rfl⟩ := step_takeFault_of_msb hr hf hp ht hq hresp hmsb
  obtain ⟨_, _, -, -, -, -, hv1, -⟩ := State.fetch_issuer hf
  obtain ⟨hdraws, hdrawn, hclocks, hsampled, -⟩ := State.fetch_env hf
  exact ⟨onlyIssuer_setIssuer_self hp _, hv1, rfl, hdraws, hdrawn, hclocks, hsampled, sameRegs_takeFault p f, rfl, rfl⟩

/-! ## Packets that do not decode -/

/-- The decoder raises the three faults of its own three checks and no other. -/
theorem decode_error_cases {pkt : Packet} {f : CmdFault} (h : decode pkt = .error f) :
    (∃ b, f = .illegalOpcode b) ∨ (∃ n, f = .badLength n) ∨ ∃ b, f = .reservedField b := by
  rcases pkt with _ | ⟨b0, rest⟩
  · cases h
    exact .inr (.inl ⟨0, rfl⟩)
  cases ho : opOfByte b0 with
  | none =>
    cases (decode_illegalOpcode ho rest).symm.trans h
    exact .inl ⟨b0, rfl⟩
  | some op =>
    by_cases hl : requiredLength op rest.head? = some (rest.length + 1)
    · cases hr : reservedByte op b0 (rest.headD 0) with
      | none => cases (decode_ok ho hl hr).symm.trans h
      | some b =>
        cases (decode_reservedField ho hl hr).symm.trans h
        exact .inr (.inr ⟨b, rfl⟩)
    · cases (decode_badLength ho hl).symm.trans h
      exact .inr (.inl ⟨_, rfl⟩)

/-- Settles O37: the step raises the decoder's fault, and each of the three has its status. -/
theorem undecodablePacketsFault : Obligations.UndecodablePacketsFault := by
  intro s s1 pkt p f hr hf hp hd
  obtain ⟨_, _, -, -, -, -, hv1, -⟩ := State.fetch_issuer hf
  refine ⟨_, _, statusOfFault f, (step_raise hr hf hd).trans (State.raise_eq hp f), onlyIssuer_setIssuer_self hp _, hv1,
    rfl, sameRegs_takeFault p f, answered_takeFault p f, rfl, ?status⟩
  rcases decode_error_cases hd with ⟨b, rfl⟩ | ⟨n, rfl⟩ | ⟨b, rfl⟩
  · exact .inl ⟨⟨b, rfl⟩, rfl⟩
  · exact .inr (.inl ⟨⟨n, rfl⟩, rfl⟩)
  · exact .inr (.inr ⟨⟨b, rfl⟩, rfl⟩)

/-! ## Nothing stops the block -/

/-- Settles O41: a step is a reset, nothing, a fault taken or a command, and a command of a port that exists takes a
fault or answers. -/
theorem everyStepAnswersANextState : Obligations.EveryStepAnswersANextState :=
  ⟨step_next, fun i _ _ hp => exec_next hp i⟩

/-! ## Ports learn nothing of each other -/

/-- Settles O50: a command cannot tell the two states apart, so it does one and the same thing to both. -/
theorem portsAreIsolated : Obligations.PortsAreIsolated := by
  intro i s s' p hp hp' hv1 henv
  obtain ⟨a, ha⟩ := exec_action s p i
  have hsame : SeenAlike s p s' p := ⟨hp', SameRegs.refl p, .inl hv1.symm, henv.symm⟩
  exact ⟨_, _, a.port p, ha s p (SeenAlike.refl hp), ha s' p hsame, Action.apply_issuer hp a, Action.apply_issuer hp' a,
    congrArg a.v1 hv1, congrArg a.env henv⟩

end Sys2Proof.Machine
end

section
/-! PROOF. Reset (70_reset_and_hazards.md R150, R151): a step that begins with the reset input set is
`State.takeReset`, which puts every port at its reset and touches no environment input. -/

namespace Sys2Proof.Machine

/-- The ports after a reset are the ports before it, each at its own reset. -/
theorem State.takeReset_port {s : State} {n : Nat} {c : Port} (hc : s.ports[n]? = some c) :
    s.takeReset.ports[n]? = some c.atReset := by
  rw [State.takeReset_ports, List.getElem?_map, hc, Option.map_some]

/-- Settles O47: the step is `State.takeReset`, and each port is put at its reset. -/
theorem resetInputResetsTheBlock : Obligations.ResetInputResetsTheBlock := fun s hr =>
  ⟨s.takeReset, step_reset hr, rfl, s.takeReset_env, s.takeReset_resetReq, List.length_map Port.atReset,
    fun _ c hc => ⟨c.atReset, State.takeReset_port hc, c.atReset_getU, c.atReset_fault, c.atReset_queue,
      c.atReset_responses⟩⟩

end Sys2Proof.Machine
end

section
/-! PROOF. The encoding examples (30_encoding.md section 9): a packet decodes to a command exactly where it is the
encoder's packet of that command, so each example is compared with what the encoder writes. -/

namespace Sys2Proof

/-- The packets that decode to a command (30_encoding.md R62). -/
theorem decode_eq_ok_iff {pkt : Packet} {i : Instr} :
    decode pkt = .ok i ↔ i.wellFormed = true ∧ pkt = encode i :=
  ⟨eq_encode_of_decode, fun ⟨hi, hp⟩ => hp ▸ decode_encode hi⟩

/-- Settles O3: each example command is well-formed, and its example packet is the one the encoder writes. -/
theorem specExamplePacketsDecode : Obligations.SpecExamplePacketsDecode := by
  simp only [Obligations.SpecExamplePacketsDecode, decode_eq_ok_iff]
  decide

end Sys2Proof
end
